-- ==== Sys2Proof/Word.lean ====
section
/-! DEFINITION. The two word types of the PRBC: every command operand, response word and 32-bit
register is a `Word` (10_state.md R17, 30_encoding.md R57), every STORE, payload and window element
is a `Byte` (20_memory.md R40). Positions and capacities are plain naturals (00_scope.md R10). -/

namespace Sys2Proof

/-- A 32-bit unsigned word (00_scope.md R10, 30_encoding.md R68). -/
abbrev Word := BitVec 32

/-- A byte of STORE, of a payload or of a header window. -/
abbrev Byte := BitVec 8

end Sys2Proof
end

