-- ==== Sys2Proof/Config.lean ====
section
/-! DEFINITION. What is fixed for one PRBC: its two build parameters, the constants of
00_scope.md R9, and the values the spec leaves free. -/

namespace Sys2Proof

/-- The two build parameters (00_scope.md R7, R8). The spec leaves both OPEN and has a model take them
as an argument: `Machine.State` carries one `Params`, which no step changes (60_exceptions.md R141),
so a claim about every state is a claim about every pair of parameters. -/
structure Params where
  /-- INIT_CAPACITY, the capacity after hard reset (R7). -/
  initCapacity : Nat
  /-- CAP_MAX: `none` is infinity, the source's unbounded policy (R8). -/
  capMax : Option Nat
deriving DecidableEq, Repr

/-- The parameter values the spec allows: 1 <= INIT_CAPACITY <= CAP_MAX, and a finite CAP_MAX is at
most 2^32 (00_scope.md R7, R8). -/
structure Params.Legal (p : Params) : Prop where
  one_le_init : 1 ≤ p.initCapacity
  init_le_max : ∀ m, p.capMax = some m → p.initCapacity ≤ m
  max_le : ∀ m, p.capMax = some m → m ≤ 4294967296

namespace Config

/-- SUBHDR_SIZE: a 4-byte length and a 4-byte skip (00_scope.md R9). -/
abbrev subHdrSize : Nat := 8

/-- HDR_SIZE: the frame header's wire size (00_scope.md R9). -/
abbrev hdrSize : Nat := 16

/-- MAGIC (00_scope.md R9). -/
abbrev magic : Word := 0x55AA55AA#32

/-- VIDEO_TYPE (00_scope.md R9). -/
abbrev videoType : Word := 6#32

/-- GROWTH_FACTOR (00_scope.md R9). -/
abbrev growthFactor : Nat := 2

/-- FREE VALUE: which of several pending ports the arbiter takes when the state's inputs name none,
at the n-th such choice (60_exceptions.md R138 fixes no policy). Log entry 4. -/
opaque arbiterPick : Nat → Nat

/-- FREE VALUE: the 32-bit word QUERY shows for a CNT of 2^32 or more, which only a PRBC with
CAP_MAX = infinity can reach and for which 10_state.md R36 has the implementation widen CNT without
saying how the response word changes. Log entry 6. -/
opaque wideCountWord : Nat → Word

/-- FREE VALUE: the byte at an offset of STORE that no rule has given a value since the last hard reset or
compaction, which leave it unspecified (10_state.md R37, 40_ring_write.md R87). The first argument
numbers those events, so each of them draws afresh. Log entry 3. -/
opaque unspecifiedByte : Nat → Nat → Byte

end Config

end Sys2Proof
end

