-- ==== Sys2Proof/Syntax.lean ====
section
/-! DEFINITION. The commands of the PRBC as syntax: ports, the request a port carries, and one
constructor of `Instr` per row of spec/opcode_table.json. -/

namespace Sys2Proof

/-- The four ports, one per agent (30_encoding.md R72, 60_exceptions.md R137): producer, consumer,
control host, header source. -/
inductive Port where
  | P | C | K | H
deriving DecidableEq, Repr

/-- What one transaction carries beside its port: the command word, the operand words and the data
bytes (30_encoding.md R57). With its port it is the spec's `Cmd = (port, cw, args, data)`. -/
structure Request where
  cw : Word
  args : List Word
  data : List Byte
deriving DecidableEq, Repr

/-- The operation codes that are not reserved (30_encoding.md R60). -/
inductive Op where
  | write | read | query | clear | decode
deriving DecidableEq, Repr

/-- The commands (30_encoding.md R59, R60). Four of them are legal on one port only, so that port is
not an operand here; QUERY is legal on three and keeps the port its response goes back to. -/
inductive Instr where
  /-- WRITE len, skip, data on port P (R61, 40_ring_write.md R75). -/
  | write (len skip : Word) (data : List Byte)
  /-- READ on port C (R62, 41_ring_read.md R93). -/
  | read
  /-- QUERY on port P, C or K (R63, 42_ring_control.md R102). -/
  | query (port : Port)
  /-- CLEAR on port K (R64, 42_ring_control.md R104). -/
  | clear
  /-- DECODE size, win on port H (R65, 43_header_decode.md R108). -/
  | decode (size : Word) (win : List Byte)
deriving DecidableEq, Repr

end Sys2Proof
end

