-- ==== Sys2Proof/WellFormed.lean ====
section
/-! DEFINITION. Which terms of `Instr` are commands: the operand shapes of 30_encoding.md R59 and,
for QUERY, the port permission table R72. A term that fails one of these checks is what R70 calls an
illegal command. -/

namespace Sys2Proof

/-- A WRITE carries exactly `len` data bytes, a QUERY is on P, C or K, and a DECODE carries exactly
16 window bytes (30_encoding.md R59, R72). -/
def Instr.wellFormed : Instr → Bool
  | .write len _ data => data.length == len.toNat
  | .read => true
  | .query port => port != .H
  | .clear => true
  | .decode _ win => win.length == Config.hdrSize

end Sys2Proof
end

