-- ==== Sys2Proof/Decode.lean ====
section
/-! DEFINITION. The front end's decoder, total on every transaction and rejecting by name
(30_encoding.md R57 to R72), then the encoder written from the same tables, and the flat layout of a
transaction that `decodeTableWord` numbers bits by. -/

namespace Sys2Proof

/-- Why a transaction is illegal: the clauses (a) to (d) of 30_encoding.md R70. -/
inductive DecodeError where
  /-- (a) OP is 0x0 or 0x6..0xF. -/
  | reservedOp (op : BitVec 4)
  /-- (b) RSVD, bits 31:4 of cw, is not 0. -/
  | reservedBits (rsvd : BitVec 28)
  /-- (c) args or data do not have the shape of R59. -/
  | wrongShape (op : Op)
  /-- (d) the port may not issue the OP (R72). -/
  | wrongPort (port : Port) (op : Op)
deriving DecidableEq, Repr

/-- Field OP of the command word, bits 3:0 (30_encoding.md R58). -/
def opField (cw : Word) : BitVec 4 := cw.extractLsb' 0 4

/-- Field RSVD of the command word, bits 31:4 (30_encoding.md R58). -/
def rsvdField (cw : Word) : BitVec 28 := cw.extractLsb' 4 28

/-- The opcode map (30_encoding.md R60); `none` is a reserved OP. -/
def opOfCode (op : BitVec 4) : Option Op :=
  if op = 0x1#4 then some .write
  else if op = 0x2#4 then some .read
  else if op = 0x3#4 then some .query
  else if op = 0x4#4 then some .clear
  else if op = 0x5#4 then some .decode
  else none

/-- The port permission table (30_encoding.md R72). -/
def mayIssue (port : Port) (op : Op) : Bool :=
  match op, port with
  | .write, .P => true
  | .read, .C => true
  | .query, .P => true
  | .query, .C => true
  | .query, .K => true
  | .clear, .K => true
  | .decode, .H => true
  | _, _ => false

/-- The operand shapes (30_encoding.md R59): the command a transaction of this OP carries, if its args
and data have the OP's shape. -/
def operandsOf (port : Port) (op : Op) (args : List Word) (data : List Byte) : Option Instr :=
  match op with
  | .write =>
    match args with
    | [len, skip] => if data.length = len.toNat then some (.write len skip data) else none
    | _ => none
  | .read => if args = [] ∧ data = [] then some .read else none
  | .query => if args = [] ∧ data = [] then some (.query port) else none
  | .clear => if args = [] ∧ data = [] then some .clear else none
  | .decode =>
    match args with
    | [size] => if data.length = Config.hdrSize then some (.decode size data) else none
    | _ => none

/-- The front end's decoder: every transaction is one command or is illegal for a named reason
(30_encoding.md R70). -/
def decode (port : Port) (r : Request) : Except DecodeError Instr :=
  if rsvdField r.cw ≠ 0 then .error (.reservedBits (rsvdField r.cw))
  else match opOfCode (opField r.cw) with
    | none => .error (.reservedOp (opField r.cw))
    | some op =>
      if mayIssue port op then
        match operandsOf port op r.args r.data with
        | some i => .ok i
        | none => .error (.wrongShape op)
      else .error (.wrongPort port op)

/-- The port a command is issued on and answered on (30_encoding.md R72). -/
def Instr.port : Instr → Port
  | .write _ _ _ => .P
  | .read => .C
  | .query port => port
  | .clear => .K
  | .decode _ _ => .H

/-- The request of a command (30_encoding.md R61 to R65). -/
def encode : Instr → Request
  | .write len skip data => ⟨0x00000001#32, [len, skip], data⟩
  | .read => ⟨0x00000002#32, [], []⟩
  | .query _ => ⟨0x00000003#32, [], []⟩
  | .clear => ⟨0x00000004#32, [], []⟩
  | .decode size win => ⟨0x00000005#32, [size], win⟩

/-- How many operand words and data bytes a transaction carries, from its OP and, for WRITE, from
args[0] (30_encoding.md R69). A reserved OP is given none. -/
def transactionShape (cw len : Word) : Nat × Nat :=
  match opOfCode (opField cw) with
  | some .write => (2, len.toNat)
  | some .decode => (1, Config.hdrSize)
  | _ => (0, 0)

/-- Word number `k` of a bit string, bit 0 the least significant bit of the first. -/
def wordOfBits (bits k : Nat) : Word := BitVec.ofNat 32 (bits / 2 ^ (32 * k))

/-- A transaction laid out flat: cw, then its operand words, then its data bytes, each from the lower
bits up. DESIGN CHOICE, log entry 8, in all of it: the spec lays out no transaction as bits and knows no
partial one (30_encoding.md R57). A word of fewer bits than its OP's shape needs is completed with zero
bits, so that its missing operand words and data bytes are zeros, and a command word 1 with len = 10
and nothing after it is a legal WRITE of ten 00 bytes. Bits beyond the shape are dropped when they
are all 0, and otherwise their low 32 bits become one more operand word, which makes the transaction
illegal. -/
def requestOfBits (nbits w : Nat) : Request :=
  let bits := w % 2 ^ nbits
  let cw := wordOfBits bits 0
  let (nargs, ndata) := transactionShape cw (wordOfBits bits 1)
  let extra := bits / 2 ^ (32 + 32 * nargs + 8 * ndata)
  { cw := cw
    args := (List.range nargs).map (fun k => wordOfBits bits (k + 1))
      ++ (if extra = 0 then [] else [BitVec.ofNat 32 extra])
    data := (List.range ndata).map
      (fun k => BitVec.ofNat 8 (bits / 2 ^ (32 + 32 * nargs + 8 * k))) }

/-- The port a flat transaction is given on: one that R72 lets issue its OP, C for QUERY, and P for a
reserved OP. Log entry 8. -/
def portOfBits (nbits w : Nat) : Port :=
  match opOfCode (opField (wordOfBits (w % 2 ^ nbits) 0)) with
  | some .read => .C
  | some .query => .C
  | some .clear => .K
  | some .decode => .H
  | _ => .P

/-- What the decoder reads from a flat transaction. -/
def decodeTableWord (nbits w : Nat) : Option Instr :=
  match decode (portOfBits nbits w) (requestOfBits nbits w) with
  | .ok i => some i
  | .error _ => none

end Sys2Proof
end

