-- ==== Sys2Proof/Machine/State.lean ====
section
/-! DEFINITION. The state of the PRBC as plain data: the registers and STORE of 10_state.md R17, the
ports' pending commands and responses of R28, and the inputs still to come from outside. -/

namespace Sys2Proof.Machine

/-- Why a step stops with a fault. No legal state (`LegalState`, Safety.lean) raises any of them: each
marks what the spec defines no result for. -/
inductive Fault where
  /-- Raised by `memRead` and `memWrite` for an access that leaves [0, CAP), where 00_scope.md R13
  does not define them. Safe: the machine stops where the spec gives no effect. -/
  | outsideStore
  /-- Raised by READ for a sub-header whose skip exceeds its length: the view has no meaning
  (40_ring_write.md R82). Safe: no WRITE stores such a sub-header. -/
  | viewUndefined
  /-- Raised by WRITE when its room loop would not end; 40_ring_write.md R85 shows that it ends from
  every state with CAP >= 1. Safe. -/
  | roomLoopEndless
deriving DecidableEq, Repr

/-- Why a step is refused. -/
inductive Refusal where
  /-- Raised by `exec` for an instruction that has no meaning yet; no arm does. Safe. -/
  | notModelled (mnemonic : String)
deriving DecidableEq, Repr

/-- STORE as (offset, byte) pairs with strictly rising offsets (`Memory.wf`): the bytes that a rule has
given a value since the last hard reset or compaction. An offset that is not listed is unspecified
(10_state.md R18, R37) and reads as a free value (`storeByte`, Ops.lean; log entry 3). -/
abbrev Memory := List Host.Cell

/-- One thing of each port. -/
structure PerPort (α : Type) where
  p : α
  c : α
  k : α
  h : α
deriving DecidableEq, Repr

/-- The error conditions with their ERR bits (10_state.md R22, 60_exceptions.md R122). -/
inductive ErrBit where
  | emptyRead | badSkip | illegal | fatal
deriving DecidableEq, Repr

/-- The response codes (30_encoding.md R67). -/
inductive RspCode where
  | ok | errEmpty | errSkip | errIllegal | errFatal
deriving DecidableEq, Repr

/-- A response transaction (30_encoding.md R66); `RspCode.word` is its code word. -/
structure Response where
  code : RspCode
  rargs : List Word
  rdata : List Byte
deriving DecidableEq, Repr

/-- One thing that comes from outside the RBU and the HVU. -/
inductive Input where
  /-- The agent of a port offers a command (30_encoding.md R57, R71). -/
  | issue (port : Port) (r : Request)
  /-- The pending command of this port is the next one to be performed: the choice 60_exceptions.md
  R138 leaves open. -/
  | take (port : Port)
  /-- The hard reset input (70_reset_and_hazards.md R142). -/
  | hardReset
deriving DecidableEq, Repr

/-- Everything the spec gives the PRBC, and what stands around it. -/
structure State where
  /-- The build parameters (00_scope.md R7, R8), constant under every step. -/
  params : Params
  /-- Register 0, CAP (10_state.md R19). -/
  cap : Nat
  /-- Register 1, RD (R20). -/
  rd : Nat
  /-- Register 2, WR (R20). -/
  wr : Nat
  /-- Register 3, TB (R23). -/
  tb : Nat
  /-- Register 4, CNT (R21), a natural as R36 has it for CAP_MAX = infinity. -/
  cnt : Nat
  /-- Register 5, ERR (R22). -/
  err : Word
  /-- Register 6, HDR_RESULT (R24). -/
  hdrResult : Word
  /-- Register 7, HDR_LENGTH (R25). -/
  hdrLength : Word
  /-- Register 8, HDR_TYPE (R25). -/
  hdrType : Word
  /-- Register 9, HDR_INFO (R25). -/
  hdrInfo : Word
  /-- STORE (R18). -/
  store : Memory
  /-- How many times STORE's unspecified bytes have been drawn afresh, by a hard reset (R37) or a
  compaction (40_ring_write.md R87). The model's own field, log entry 3. -/
  fills : Nat
  /-- Each port's command that has been issued and not yet answered (R28 (b)). -/
  pend : PerPort (Option Request)
  /-- The responses each port has received, oldest first: the observation of
  70_reset_and_hazards.md R155. -/
  sent : PerPort (List Response)
  /-- What comes from outside, next first: the agents' commands, the arbiter's choices (R28 (c)) and
  hard resets. The model's own field, log entry 4. -/
  inputs : List Input
  /-- How many choices of the arbiter have been drawn from `Config.arbiterPick`. The model's own
  field, log entry 4. -/
  draws : Nat
deriving DecidableEq, Repr

/-- The machine right after hard reset with these parameters (10_state.md R37). -/
def State.resetWith (params : Params) : State :=
  { params := params
    cap := params.initCapacity
    rd := 0
    wr := 0
    tb := 0
    cnt := 0
    err := 0#32
    hdrResult := 0#32
    hdrLength := 0#32
    hdrType := 0#32
    hdrInfo := 0#32
    store := []
    fills := 0
    pend := ⟨none, none, none, none⟩
    sent := ⟨[], [], [], []⟩
    inputs := []
    draws := 0 }

/-- The machine right after hard reset, with the parameters of 95_test_vectors.md (INIT_CAPACITY 32,
CAP_MAX 1024). DESIGN CHOICE, log entry 1: the spec leaves both open, and no statement rests on these
two values. -/
def State.reset : State := State.resetWith ⟨32, some 1024⟩

end Sys2Proof.Machine
end

