-- ==== Sys2Proof/Machine/Operands.lean ====
section
/-! DEFINITION. Multi-byte values, per-port access, the parameter bound and the size a payload needs:
the operand side of every command. -/

namespace Sys2Proof.Machine

/-- `le32` (00_scope.md R12): least significant byte at the lowest offset. -/
def le32 (b0 b1 b2 b3 : Byte) : Word :=
  BitVec.ofNat 32 (b0.toNat + 256 * b1.toNat + 65536 * b2.toNat + 16777216 * b3.toNat)

/-- `be32` (00_scope.md R12): most significant byte at the lowest offset. -/
def be32 (b0 b1 b2 b3 : Byte) : Word :=
  BitVec.ofNat 32 (16777216 * b0.toNat + 65536 * b1.toNat + 256 * b2.toNat + b3.toNat)

/-- `be32bytes` (00_scope.md R12): the four bytes whose `be32` is `v`. -/
def be32bytes (v : Word) : List Byte :=
  [BitVec.ofNat 8 (v.toNat / 16777216), BitVec.ofNat 8 (v.toNat / 65536),
    BitVec.ofNat 8 (v.toNat / 256), BitVec.ofNat 8 v.toNat]

/-- `le32bytes` (00_scope.md R12): the four bytes whose `le32` is `v`. -/
def le32bytes (v : Word) : List Byte :=
  [BitVec.ofNat 8 v.toNat, BitVec.ofNat 8 (v.toNat / 256),
    BitVec.ofNat 8 (v.toNat / 65536), BitVec.ofNat 8 (v.toNat / 16777216)]

/-- The big-endian value of four bytes read from STORE (20_memory.md R42); every caller gives four. -/
def be32of : List Byte → Word
  | [b0, b1, b2, b3] => be32 b0 b1 b2 b3
  | _ => 0#32

/-- The 8 sub-header bytes of a packet (20_memory.md R42). -/
def subHeader (len skip : Word) : List Byte := be32bytes len ++ be32bytes skip

/-- `need(len)` (40_ring_write.md R76). -/
def need (len : Nat) : Nat := max 9 (len + 8)

/-- `c <= CAP_MAX`, true of every capacity when CAP_MAX is infinity (00_scope.md R8). -/
def admits (params : Params) (c : Nat) : Bool :=
  match params.capMax with
  | none => true
  | some m => decide (c ≤ m)

/-- The thing of a port. -/
def PerPort.get {α : Type} (t : PerPort α) : Port → α
  | .P => t.p
  | .C => t.c
  | .K => t.k
  | .H => t.h

/-- Replace the thing of a port. -/
def PerPort.set {α : Type} (t : PerPort α) (port : Port) (x : α) : PerPort α :=
  match port with
  | .P => { t with p := x }
  | .C => { t with c := x }
  | .K => { t with k := x }
  | .H => { t with h := x }

/-- The code word of a response, bits 31:4 zero (30_encoding.md R66, R67). -/
def RspCode.word : RspCode → Word
  | .ok => 0#32
  | .errEmpty => 1#32
  | .errSkip => 2#32
  | .errIllegal => 3#32
  | .errFatal => 4#32

/-- The bit number of an error condition in ERR (10_state.md R22). -/
def ErrBit.index : ErrBit → Nat
  | .emptyRead => 0
  | .badSkip => 1
  | .illegal => 2
  | .fatal => 3

/-- The response code of an error condition (60_exceptions.md R122). -/
def ErrBit.code : ErrBit → RspCode
  | .emptyRead => .errEmpty
  | .badSkip => .errSkip
  | .illegal => .errIllegal
  | .fatal => .errFatal

end Sys2Proof.Machine
end

