-- ==== Sys2Proof/Machine/Flags.lean ====
section
/-! DEFINITION. The flags and level outputs (10_state.md R26, R27), the fields of ERR and HDR_RESULT
(R22, R24), and the derived quantities of the ring (R29 to R32). All are functions of the state. -/

namespace Sys2Proof.Machine

/-- ERR with the bit of `e` set (10_state.md R22). -/
def errSet (e : ErrBit) (err : Word) : Word := err ||| BitVec.twoPow 32 e.index

/-- ERR after CLEAR: bits 0 to 2 are 0, the others, ERR.FATAL among them, are kept
(42_ring_control.md R105). -/
def errClear (err : Word) : Word := err &&& ~~~7#32

/-- A bit of ERR. -/
def errBit (e : ErrBit) (s : State) : Bool := s.err.getLsbD e.index

/-- The FATAL state: ERR.FATAL = 1 (60_exceptions.md R124). -/
def inFatal (s : State) : Bool := errBit .fatal s

/-- Flag `empty` (10_state.md R26). -/
def empty (s : State) : Bool := s.cnt == 0

/-- Flag `nonempty` (10_state.md R26). -/
def nonempty (s : State) : Bool := s.cnt != 0

/-- HDR_RESULT.KIND, bits 1:0 (10_state.md R24). -/
def hdrKind (s : State) : BitVec 2 := s.hdrResult.extractLsb' 0 2

/-- HDR_RESULT.CAUSE, bits 3:2 (10_state.md R24). -/
def hdrCause (s : State) : BitVec 2 := s.hdrResult.extractLsb' 2 2

/-- HDR_RESULT.IS_VIDEO, bit 4 (10_state.md R24), which is also flag `is_video` (R26). -/
def isVideo (s : State) : Bool := s.hdrResult.getLsbD 4

/-- Level output `nonempty_o` (10_state.md R27). -/
def nonemptyO (s : State) : Bool := nonempty s

/-- Level output `err_o` (10_state.md R27). -/
def errO (s : State) : Bool := s.err != 0#32

/-- Level output `fatal_o` (10_state.md R27). -/
def fatalO (s : State) : Bool := inFatal s

/-- `wrapped` (10_state.md R29). -/
def wrapped (s : State) : Bool := decide (0 < s.cnt) && decide (s.wr ≤ s.rd)

/-- `live`, the unread bytes with their sub-headers (10_state.md R30). -/
def live (s : State) : Nat := if wrapped s then (s.tb - s.rd) + s.wr else s.wr - s.rd

/-- `spaceAtHead`, the contiguous free bytes from WR on (10_state.md R31). -/
def spaceAtHead (s : State) : Nat := if wrapped s then s.rd - s.wr else s.cap - s.wr

/-- `spaceAtStart`, the contiguous free bytes from offset 0 to RD (10_state.md R32). -/
def spaceAtStart (s : State) : Nat := if wrapped s then 0 else s.rd

/-- `fits(len)` (40_ring_write.md R76). -/
def fits (len : Nat) (s : State) : Bool :=
  decide (8 < spaceAtHead s) &&
    (decide (len + 8 ≤ spaceAtHead s) || decide (len + 8 ≤ spaceAtStart s))

/-- `headFit` (40_ring_write.md R77, R80). -/
def headFit (len : Nat) (s : State) : Bool := decide (len + 8 ≤ spaceAtHead s)

/-- `growWanted(len)`: the growth threshold or the progress clause (40_ring_write.md R83, R84). -/
def growWanted (len : Nat) (s : State) : Bool :=
  decide (s.cap / 2 ≤ live s) || decide (s.cap - live s < need len)

end Sys2Proof.Machine
end

