-- ==== Sys2Proof/Machine/Ops.lean ====
section
/-! DEFINITION. The shared operations: STORE access (00_scope.md R13), responding and raising
(R13, 60_exceptions.md R126), compaction (40_ring_write.md R87, R88) and hard reset
(70_reset_and_hazards.md R142). The PRBC has no trap entry and no trap return (R127, R128): `raiseErr`
is all there is to an error. -/

namespace Sys2Proof.Machine

/-- What a command or a step comes to. -/
abbrev Result := Host.Outcome State Fault Refusal

/-- A result from an internal operation: its fault, or what follows from its value. -/
def andThen {α : Type} (x : Except Fault α) (f : α → Result) : Result :=
  match x with
  | .ok a => f a
  | .error e => .fault e

/-- The canonical form of STORE: offsets strictly rising. An entry says that a rule wrote this byte, so two
stores with the same written bytes are the same list. What an unlisted offset reads as is a free value,
which no entry can be compared with (log entry 3). -/
abbrev Memory.wf (m : Memory) : Prop := m.Pairwise (fun x y => x.1 < y.1)

/-- The byte that a rule wrote at an offset; `none` is an unspecified byte. -/
def Memory.get : Memory → Nat → Option Byte
  | [], _ => none
  | (a, b) :: m, i => if i = a then some b else Memory.get m i

/-- STORE[i] <- v. -/
def Memory.set : Memory → Nat → Byte → Memory
  | [], i, v => [(i, v)]
  | (a, b) :: m, i, v =>
    if i < a then (i, v) :: (a, b) :: m
    else if i = a then (i, v) :: m
    else (a, b) :: Memory.set m i v

/-- STORE[i + j] <- v[j] for every j, in order. -/
def Memory.setBytes (m : Memory) (i : Nat) : List Byte → Memory
  | [] => m
  | v :: vs => Memory.setBytes (m.set i v) (i + 1) vs

/-- A fresh store: `bytes` from offset `i` on, every other byte unspecified. -/
def Memory.ofBytes (i : Nat) : List Byte → Memory
  | [] => []
  | v :: vs => (i, v) :: Memory.ofBytes (i + 1) vs

/-- The byte STORE holds at an offset: the one a rule wrote there, or a free value where the byte is
unspecified (10_state.md R37, 40_ring_write.md R87; log entry 3). -/
def storeByte (s : State) (a : Nat) : Byte :=
  match s.store.get a with
  | some b => b
  | none => Config.unspecifiedByte s.fills a

/-- The `n` bytes from offset `i` on, or `none` when one of them is unspecified. -/
def Memory.getBytes (m : Memory) (i : Nat) : Nat → Option (List Byte)
  | 0 => some []
  | n + 1 =>
    match m.get i, Memory.getBytes m (i + 1) n with
    | some v, some vs => some (v :: vs)
    | _, _ => none

/-- `MemRead(addr, n)` (00_scope.md R13): defined inside [0, CAP) only. -/
def memRead (addr n : Nat) (s : State) : Except Fault (List Byte) :=
  if s.cap < addr + n then .error .outsideStore
  else .ok ((List.range n).map fun j => storeByte s (addr + j))

/-- `MemRead(addr, n)` where a rule wrote every byte it names; `none` for any other access. -/
def memGiven (addr n : Nat) (s : State) : Option (List Byte) :=
  if s.cap < addr + n then none else s.store.getBytes addr n

/-- `MemWrite(addr, n, v)` with n = |v| (00_scope.md R13): defined inside [0, CAP) only. -/
def memWrite (addr : Nat) (v : List Byte) (s : State) : Except Fault State :=
  if s.cap < addr + v.length then .error .outsideStore
  else .ok { s with store := s.store.setBytes addr v }

/-- A response goes out on `port` (00_scope.md R13, 30_encoding.md R66): the port gets it, and nothing
else changes. -/
def respond (port : Port) (r : Response) (s : State) : State :=
  { s with sent := s.sent.set port (s.sent.get port ++ [r]) }

/-- An OK response with these words and bytes. -/
def respondOk (port : Port) (rargs : List Word) (rdata : List Byte) (s : State) : State :=
  respond port ⟨.ok, rargs, rdata⟩ s

/-- An error response: no words and no bytes (30_encoding.md R66). -/
def respondErr (port : Port) (code : RspCode) (s : State) : State :=
  respond port ⟨code, [], []⟩ s

/-- `raise E` (00_scope.md R13): `ERR.E <- 1; respond(code_of(E), [], [])`, and no other change
(60_exceptions.md R126). -/
def raiseErr (e : ErrBit) (port : Port) (s : State) : State :=
  respondErr port e.code { s with err := errSet e s.err }

/-- The unread bytes in packet order: [RD, WR), or the tail region [RD, TB) and then the head region
[0, WR) when wrapped (40_ring_write.md R87, R88). -/
def liveBytes (s : State) : Except Fault (List Byte) :=
  if wrapped s then
    match memRead s.rd (s.tb - s.rd) s with
    | .ok tail =>
      match memRead 0 s.wr s with
      | .ok head => .ok (tail ++ head)
      | .error e => .error e
    | .error e => .error e
  else memRead s.rd (s.wr - s.rd) s

/-- `compact(newCap)` (40_ring_write.md R87, R88): the live bytes move to the front of a store of
`newCap` bytes whose other bytes are unspecified, a fresh draw; TB and CNT stay. -/
def compact (newCap : Nat) (s : State) : Except Fault State :=
  match liveBytes s with
  | .ok bytes =>
    .ok { s with
      cap := newCap
      store := Memory.ofBytes 0 bytes
      fills := s.fills + 1
      rd := 0
      wr := bytes.length }
  | .error e => .error e

/-- Hard reset (70_reset_and_hazards.md R142, 10_state.md R37): every register at its reset value, STORE
unspecified, a fresh draw, every pending command abandoned without a response. What the ports already
received (log entry 5) and what is still to come from outside (log entry 4) stays. -/
def hardReset (s : State) : State :=
  { State.resetWith s.params with
    fills := s.fills + 1, sent := s.sent, inputs := s.inputs, draws := s.draws }

end Sys2Proof.Machine
end

