-- ==== Sys2Proof/Machine/Header.lean ====
section
/-! DEFINITION. DECODE, the HVU's one command (43_header_decode.md). -/

namespace Sys2Proof.Machine

/-- HDR_RESULT.KIND (10_state.md R24). -/
inductive HdrKind where
  | none | valid | malformedHeader | unrecognizedStream
deriving DecidableEq, Repr

/-- HDR_RESULT.CAUSE (10_state.md R24). -/
inductive HdrCause where
  | none | size | checksum | magic
deriving DecidableEq, Repr

/-- KIND's number (10_state.md R24). -/
def HdrKind.code : HdrKind → Nat
  | .none => 0
  | .valid => 1
  | .malformedHeader => 2
  | .unrecognizedStream => 3

/-- CAUSE's number (10_state.md R24). -/
def HdrCause.code : HdrCause → Nat
  | .none => 0
  | .size => 1
  | .checksum => 2
  | .magic => 3

/-- HDR_RESULT from its fields: KIND in bits 1:0, CAUSE in bits 3:2, IS_VIDEO in bit 4, the rest 0
(10_state.md R24). -/
def hdrResultWord (kind : HdrKind) (cause : HdrCause) (video : Bool) : Word :=
  BitVec.ofNat 32 (kind.code + 4 * cause.code + (if video then 16 else 0))

/-- The 32-bit little-endian field at window offset `i` (20_memory.md R43, 43_header_decode.md R109,
R115). A well-formed DECODE has all 16 offsets. -/
def winField (win : List Byte) (i : Nat) : Word :=
  le32 (win.getD i 0#8) (win.getD (i + 1) 0#8) (win.getD (i + 2) 0#8) (win.getD (i + 3) 0#8)

/-- `fail(kind, cause, info)` (43_header_decode.md R110). -/
def hdrFail (kind : HdrKind) (cause : HdrCause) (info : Word) (s : State) : State :=
  { s with hdrResult := hdrResultWord kind cause false, hdrLength := 0#32, hdrType := 0#32, hdrInfo := info }

/-- A header that passes all three checks (43_header_decode.md R116, R117). -/
def hdrPass (length type : Word) (s : State) : State :=
  { s with
    hdrResult := hdrResultWord .valid .none (type == Config.videoType)
    hdrLength := length
    hdrType := type
    hdrInfo := 0#32 }

/-- The three checks in their order: size, magic, checksum (43_header_decode.md R110, R111). -/
def validate (size : Word) (win : List Byte) (s : State) : State :=
  if size ≠ 16#32 then hdrFail .malformedHeader .size size s
  else if winField win 0 ≠ Config.magic then hdrFail .unrecognizedStream .magic (winField win 0) s
  else if winField win 12 ≠ winField win 8 ^^^ 0xFFFFFFFF#32 then
    hdrFail .malformedHeader .checksum (winField win 12) s
  else hdrPass (winField win 4) (winField win 8) s

/-- The four HVU result registers, as DECODE answers them (43_header_decode.md R119). -/
def hdrWords (s : State) : List Word := [s.hdrResult, s.hdrLength, s.hdrType, s.hdrInfo]

/-- DECODE (43_header_decode.md R110): performed whatever the RBU state, and always answered OK. -/
def execDecode (size : Word) (win : List Byte) (s : State) : Result :=
  if (Instr.decode size win).wellFormed then
    .next (respondOk .H (hdrWords (validate size win s)) [] (validate size win s))
  else .next (raiseErr .illegal .H s)

end Sys2Proof.Machine
end

