-- ==== Sys2Proof/Machine/RingControl.lean ====
section
/-! DEFINITION. QUERY and CLEAR (42_ring_control.md). -/

namespace Sys2Proof.Machine

/-- CNT as QUERY's response word (30_encoding.md R66). From 2^32 on, which takes CAP_MAX = infinity,
the word is a free value (10_state.md R36; log entry 6). -/
def cntWord (cnt : Nat) : Word :=
  if cnt < 4294967296 then BitVec.ofNat 32 cnt else Config.wideCountWord cnt

/-- QUERY (42_ring_control.md R102): performed in every RBU state, and no state changes. -/
def execQuery (port : Port) (s : State) : Result :=
  if (Instr.query port).wellFormed then .next (respondOk port [cntWord s.cnt, s.err] [] s)
  else .next (raiseErr .illegal port s)

/-- CLEAR (42_ring_control.md R105). -/
def execClear (s : State) : Result :=
  if inFatal s then .next (respondErr .K .errFatal s)
  else .next (respondOk .K [] [] { s with cnt := 0, rd := 0, wr := 0, err := errClear s.err })

end Sys2Proof.Machine
end

