-- ==== Sys2Proof/Machine/RingRead.lean ====
section
/-! DEFINITION. READ (41_ring_read.md). -/

namespace Sys2Proof.Machine

/-- The (len, skip) of the sub-header at offset `h` (41_ring_read.md R96, 20_memory.md R42). -/
def readSubHeader (h : Nat) (s : State) : Except Fault (Word × Word) :=
  match memRead h 4 s with
  | .ok len =>
    match memRead (h + 4) 4 s with
    | .ok skip => .ok (be32of len, be32of skip)
    | .error e => .error e
  | .error e => .error e

/-- Where the payload of the sub-header at `h` starts: after it, or at offset 0 when it would pass CAP
(41_ring_read.md R96, 10_state.md R35). -/
def payloadStart (h len : Nat) (s : State) : Nat :=
  if s.cap < h + Config.subHdrSize + len then 0 else h + Config.subHdrSize

/-- READ (41_ring_read.md R95). -/
def execRead (s : State) : Result :=
  if inFatal s then .next (respondErr .C .errFatal s)
  else if empty s then .next (raiseErr .emptyRead .C s)
  else andThen (readSubHeader s.rd s) fun (len, skip) =>
    let start := payloadStart s.rd len.toNat s
    if len.toNat < skip.toNat then .fault .viewUndefined
    else andThen (memRead (start + skip.toNat) (len.toNat - skip.toNat) s) fun view =>
      .next (respondOk .C [len - skip] view
        { s with rd := start + len.toNat, cnt := s.cnt - 1 })

end Sys2Proof.Machine
end

