-- ==== Sys2Proof/Machine/RingWrite.lean ====
section
/-! DEFINITION. WRITE: the room loop and the placement of a packet (40_ring_write.md). -/

namespace Sys2Proof.Machine

/-- What the room loop comes to. -/
inductive Room where
  /-- `fits` holds in this state. -/
  | ready (s : State)
  /-- The growth it needs passes CAP_MAX (40_ring_write.md R86 (b)). -/
  | overCap
  /-- An access the spec does not define. -/
  | stopped (f : Fault)
deriving DecidableEq, Repr

/-- `compact` as a stage of the room loop. -/
def compactRoom (newCap : Nat) (s : State) : Room :=
  match compact newCap s with
  | .ok s' => .ready s'
  | .error f => .stopped f

/-- One iteration of the room loop: growth, compaction alone, or neither (40_ring_write.md R77, R83 to
R86). -/
def roomStep (len : Nat) (s : State) : Room :=
  if growWanted len s && admits s.params (Config.growthFactor * s.cap) then
    compactRoom (Config.growthFactor * s.cap) s
  else if need len ≤ s.cap - live s then compactRoom s.cap s
  else .overCap

/-- The room loop, `while not fits(len)`, with a bound on its iterations (40_ring_write.md R81). -/
def roomLoop (len : Nat) : Nat → State → Room
  | 0, s => if fits len s then .ready s else .stopped .roomLoopEndless
  | fuel + 1, s =>
    if fits len s then .ready s
    else match roomStep len s with
      | .ready s' => roomLoop len fuel s'
      | .overCap => .overCap
      | .stopped f => .stopped f

/-- A bound the loop never reaches: 40_ring_write.md R85 has it run at most k times, for the least k
with CAP * 2^k >= live + need(len), or once. -/
def roomFuel (len : Nat) (s : State) : Nat := Nat.log2 (live s + need len) + 2

/-- Step 3 of WRITE: make room for a payload of `len` bytes. -/
def makeRoom (len : Nat) (s : State) : Room := roomLoop len (roomFuel len s) s

/-- Step 4 of WRITE: the sub-header at WR (40_ring_write.md R79). -/
def putSubHeader (len skip : Word) (s : State) : Except Fault State :=
  match memWrite s.wr (subHeader len skip) s with
  | .ok s' => .ok { s' with wr := s.wr + Config.subHdrSize }
  | .error f => .error f

/-- Step 5 of WRITE: the payload after its sub-header (40_ring_write.md R80). -/
def putAtHead (data : List Byte) (s : State) : Except Fault State :=
  match memWrite s.wr data s with
  | .ok s' => .ok { s' with wr := s.wr + data.length }
  | .error f => .error f

/-- Step 6 of WRITE: the payload at offset 0 (40_ring_write.md R89). -/
def putAtStart (data : List Byte) (s : State) : Except Fault State :=
  match memWrite 0 data s with
  | .ok s' => .ok { s' with tb := s.wr, wr := data.length }
  | .error f => .error f

/-- Steps 4 to 7 of WRITE, once there is room: `headFit` is measured before the sub-header is written
(40_ring_write.md R77, R90). -/
def placePacket (len skip : Word) (data : List Byte) (s : State) : Except Fault State :=
  match putSubHeader len skip s with
  | .ok s1 =>
    match (if headFit len.toNat s then putAtHead data s1 else putAtStart data s1) with
    | .ok s2 => .ok { s2 with cnt := s.cnt + 1 }
    | .error f => .error f
  | .error f => .error f

/-- WRITE (40_ring_write.md R77), its checks in the order of R78: legality, the FATAL state, skip, and
last the growth past CAP_MAX. That last one raises FATAL on the state the WRITE began with (R86). -/
def execWrite (len skip : Word) (data : List Byte) (s : State) : Result :=
  if (Instr.write len skip data).wellFormed then
    if inFatal s then .next (respondErr .P .errFatal s)
    else if len.toNat < skip.toNat then .next (raiseErr .badSkip .P s)
    else match makeRoom len.toNat s with
      | .ready s1 => andThen (placePacket len skip data s1) fun s2 => .next (respondOk .P [] [] s2)
      | .overCap => .next (raiseErr .fatal .P s)
      | .stopped f => .fault f
  else .next (raiseErr .illegal .P s)

end Sys2Proof.Machine
end

