-- ==== Sys2Proof/Machine/Dispatch.lean ====
section
/-! DEFINITION. One arm per constructor of `Instr` (30_encoding.md R60). -/

namespace Sys2Proof.Machine

def exec (i : Instr) (s : State) : Host.Outcome State Fault Refusal :=
  match i with
  | .write len skip data => Sys2Proof.Machine.execWrite len skip data s
  | .read => Sys2Proof.Machine.execRead s
  | .query port => Sys2Proof.Machine.execQuery port s
  | .clear => Sys2Proof.Machine.execClear s
  | .decode size win => Sys2Proof.Machine.execDecode size win s

end Sys2Proof.Machine
end

