-- ==== Sys2Proof/Machine/Arbiter.lean ====
section
/-! DEFINITION. What one step of the machine is: an input from outside, or one pending command
performed whole (00_scope.md R3, 60_exceptions.md R138). -/

namespace Sys2Proof.Machine

/-- The ports with a pending command. -/
def pendingPorts (s : State) : List Port :=
  [Port.P, Port.C, Port.K, Port.H].filter fun port => (s.pend.get port).isSome

/-- A port's pending command is performed as one indivisible step (00_scope.md R3): an illegal one
answers ERR_ILLEGAL and sets ERR.ILLEGAL (30_encoding.md R70), any other runs by its own rule. -/
def perform (port : Port) (r : Request) (s : State) : Result :=
  let s1 := { s with pend := s.pend.set port none }
  match decode port r with
  | .ok i => exec i s1
  | .error _ => .next (raiseErr .illegal port s1)

/-- Perform what is pending on a port, if anything is. -/
def performPending (port : Port) (s : State) : Result :=
  match s.pend.get port with
  | some r => perform port r s
  | none => .next s

/-- A port offers a command. It becomes pending when the port has none. When the port's previous
command is not answered yet, the new one waits outside (30_encoding.md R71): it stays the next input,
and the previous one is performed. -/
def offer (port : Port) (r : Request) (rest : List Input) (s : State) : Result :=
  match s.pend.get port with
  | none => .next { s with inputs := rest, pend := s.pend.set port (some r) }
  | some q => perform port q s

/-- Nothing more comes from outside: the arbiter takes any pending port (60_exceptions.md R138), a free
value where there are several, and the run is over when there is none (70_reset_and_hazards.md R155). -/
def arbitrate (s : State) : Result :=
  match pendingPorts s with
  | [] => .next s
  | [port] => performPending port s
  | port :: others =>
    performPending ((port :: others).getD (Config.arbiterPick s.draws % (others.length + 1)) port)
      { s with draws := s.draws + 1 }

/-- One step of the machine. -/
def stepOnce (s : State) : Result :=
  match s.inputs with
  | .hardReset :: rest => .next (hardReset { s with inputs := rest })
  | .issue port r :: rest => offer port r rest s
  | .take port :: rest => performPending port { s with inputs := rest }
  | [] => arbitrate s

/-- A command made pending on a port and named as the next one to be performed. -/
def present (port : Port) (r : Request) (s : State) : State :=
  { s with pend := s.pend.set port (some r), inputs := .take port :: s.inputs }

end Sys2Proof.Machine
end

