-- ==== Sys2Proof/Machine/Step.lean ====
section
/-! DEFINITION. The step of the machine, and how a flat transaction comes to be its next command. -/

namespace Sys2Proof.Machine

/-- One step: `stepOnce` of Arbiter.lean. -/
def step (s : State) : Host.Outcome State Fault Refusal := stepOnce s

/-- The state whose very next step performs this transaction: it is pending on its port, and the arbiter
takes that port. The PRBC fetches nothing (10_state.md R16), so this stands for an agent issuing the
command. Log entry 8. -/
def State.withFetchWord (s : State) (nbits w : Nat) : State :=
  present (portOfBits nbits w) (requestOfBits nbits w) s

end Sys2Proof.Machine
end

