-- ==== Sys2Proof/Machine/Packets.lean ====
section
/-! DEFINITION. The packets a state holds: the sub-header offsets of 10_state.md R35 and the abstract
packet queue of R38. -/

namespace Sys2Proof.Machine

/-- A stored packet's sub-header: its offset h, len(h), skp(h) and pay(h) (10_state.md R35). -/
structure Slot where
  off : Nat
  len : Word
  skip : Word
  pay : Nat
deriving DecidableEq, Repr

/-- An entry of the abstract packet queue (10_state.md R38). -/
structure Packet where
  len : Word
  skip : Word
  data : List Byte
deriving DecidableEq, Repr

/-- The sub-header at offset `h`; `none` unless its 8 bytes lie in the store and were written by a rule
(where they were, this is what `readSubHeader` reads). -/
def slotAt (h : Nat) (s : State) : Option Slot :=
  match memGiven h Config.subHdrSize s with
  | some v =>
    let len := be32of (v.take 4)
    some ⟨h, len, be32of (v.drop 4), payloadStart h len.toNat s⟩
  | none => none

/-- end(h) (10_state.md R35). -/
def Slot.stop (x : Slot) : Nat := x.pay + x.len.toNat

/-- The payload was put at offset 0 (10_state.md R35: pay(h) = 0). -/
def Slot.jumps (x : Slot) : Bool := x.pay == 0

/-- `n` sub-headers from offset `h` on, each at the end of the one before (10_state.md R35), and where
the last one ends. -/
def slotsFrom : Nat → Nat → State → Option (List Slot × Nat)
  | 0, h, _ => some ([], h)
  | n + 1, h, s =>
    match slotAt h s with
    | some x =>
      match slotsFrom n x.stop s with
      | some (xs, last) => some (x :: xs, last)
      | none => none
    | none => none

/-- The packet of a sub-header; `none` unless its payload lies in the store and was written by a rule
(where it was, this is what `memRead` reads). -/
def Slot.packet (x : Slot) (s : State) : Option Packet :=
  match memGiven x.pay x.len.toNat s with
  | some data => some ⟨x.len, x.skip, data⟩
  | none => none

/-- The packets of a list of sub-headers, in order. -/
def packetsOf : List Slot → State → Option (List Packet)
  | [], _ => some []
  | x :: xs, s =>
    match x.packet s, packetsOf xs s with
    | some p, some ps => some (p :: ps)
    | _, _ => none

/-- `pkts(state)`, the abstract packet queue (10_state.md R38); `none` in a state whose ring holds no
CNT packets that rules wrote, which no legal state is. -/
def pkts (s : State) : Option (List Packet) :=
  match slotsFrom s.cnt s.rd s with
  | some (xs, _) => packetsOf xs s
  | none => none

/-- The bytes a READ of this packet returns (41_ring_read.md R97). -/
def Packet.view (p : Packet) : List Byte := p.data.drop p.skip.toNat

end Sys2Proof.Machine
end

