-- ==== Sys2Proof/Machine/Runs.lean ====
section
/-! DEFINITION. Endless runs, in which commands may keep arriving, and the fairness of the arbiter over
them (60_exceptions.md R139). -/

namespace Sys2Proof.Machine

/-- `run` is an endless run: what comes from outside at time `n`, `more n`, joins the inputs, and then the
machine steps. The arbiter's choices are the `take` inputs among them and, when no input is left, the
free value of log entry 4, so every order that R138 admits is an order of some run. -/
def IsRun (more : Nat → List Input) (run : Nat → State) : Prop :=
  ∀ n, step { run n with inputs := (run n).inputs ++ more n } = .next (run (n + 1))

/-- Weak fairness of the arbiter (60_exceptions.md R139): it starves no port. A command that is pending is
pending only for finitely many steps: it is performed, or a hard reset abandons it. The runs of the PRBC
are the fair ones; an arbiter that prefers one port for ever has runs that are not. -/
def Fair (run : Nat → State) : Prop :=
  ∀ n port, ((run n).pend.get port).isSome = true → ∃ m, n < m ∧ (run m).pend.get port = none

end Sys2Proof.Machine
end

