-- ==== Sys2Proof/Safety.lean ====
section
/-! DEFINITION. What a legal state is: the invariants of 10_state.md R19, R22, R24, R25, R33 to R35,
and STORE's canonical form. Claims about a run are stated in these terms. -/

namespace Sys2Proof.Machine

/-- CAP is INIT_CAPACITY * 2^k and at most CAP_MAX (10_state.md R19), and RD, WR and, when wrapped, TB
are inside it (R33). -/
structure Bounds (s : State) : Prop where
  cap_is_grown : ∃ k, s.cap = s.params.initCapacity * 2 ^ k
  cap_admitted : admits s.params s.cap = true
  rd_le : s.rd ≤ s.cap
  wr_le : s.wr ≤ s.cap
  tb_inside : wrapped s = true → s.rd < s.tb ∧ s.tb + 1 ≤ s.cap

/-- The packet layout (10_state.md R35): CNT sub-headers, each at the end of the packet before, lead
from RD to WR; each has skip <= len; every byte of them was written by a rule (R37); and exactly the wrapped buffer has
exactly one payload at offset 0, whose sub-header ends at TB. -/
def Layout (s : State) : Prop :=
  ∃ xs, slotsFrom s.cnt s.rd s = some (xs, s.wr) ∧
    (∀ x ∈ xs, x.skip.toNat ≤ x.len.toNat ∧ (x.packet s).isSome = true) ∧
    (xs.filter Slot.jumps).map (fun x => x.off + Config.subHdrSize) = if wrapped s then [s.tb] else []

/-- STORE is in canonical form and holds bytes at offsets below CAP only (10_state.md R18). -/
structure StoreLegal (s : State) : Prop where
  wf : s.store.wf
  inside : ∀ x ∈ s.store, x.1 < s.cap

/-- The reserved bits of ERR are 0 (10_state.md R22). -/
def ErrLegal (s : State) : Prop := s.err.toNat < 16

/-- The HVU result registers hold one of the outcomes of 10_state.md R24 and R25: no DECODE yet, a valid
header, or one of the three failures. -/
inductive HdrLegal (s : State) : Prop where
  | noDecode (result : s.hdrResult = 0#32) (length : s.hdrLength = 0#32) (type : s.hdrType = 0#32)
      (info : s.hdrInfo = 0#32)
  | valid (result : s.hdrResult = if s.hdrType = 6#32 then 0x11#32 else 0x01#32)
      (info : s.hdrInfo = 0#32)
  | failed (result : s.hdrResult = 0x06#32 ∨ s.hdrResult = 0x0A#32 ∨ s.hdrResult = 0x0F#32)
      (length : s.hdrLength = 0#32) (type : s.hdrType = 0#32)

/-- The legal states: what holds after hard reset and after every command (10_state.md section 6). -/
structure LegalState (s : State) : Prop where
  params : s.params.Legal
  bounds : Bounds s
  empty : s.cnt = 0 → s.rd = s.wr
  layout : Layout s
  store : StoreLegal s
  err : ErrLegal s
  hdr : HdrLegal s

/-- The store can be made large enough for a payload of `len` bytes: some INIT_CAPACITY * 2^k <= CAP_MAX
holds the live bytes and need(len), that is CAPREACH - live >= need(len) (40_ring_write.md R86). -/
def RoomReachable (len : Nat) (s : State) : Prop :=
  ∃ k, admits s.params (s.params.initCapacity * 2 ^ k) = true ∧
    live s + need len ≤ s.params.initCapacity * 2 ^ k

/-- The live byte number `a`: the region [RD, WR), or the tail region [RD, TB) and then the head region
[0, WR) when wrapped (10_state.md R30). -/
def liveByte (s : State) (a : Nat) : Option Byte :=
  if wrapped s then
    if a < s.tb - s.rd then s.store.get (s.rd + a) else s.store.get (a - (s.tb - s.rd))
  else s.store.get (s.rd + a)

/-- The response a command's port received last. -/
def lastResponse (port : Port) (s : State) : Option Response := (s.sent.get port).getLast?

/-- How many responses are due on a port: one for its pending command, if any, and one for each command
still to be issued there. -/
def due (port : Port) (s : State) : Nat :=
  (if (s.pend.get port).isSome then 1 else 0) +
    (s.inputs.filter fun x => match x with
      | .issue p _ => p == port
      | _ => false).length

/-- No port has a pending command and nothing more comes from outside: the run is over
(70_reset_and_hazards.md R155). -/
def RunOver (s : State) : Prop := s.inputs = [] ∧ pendingPorts s = []

/-- The state with one more response on a port and nothing else changed. -/
def answered (port : Port) (code : RspCode) (rargs : List Word) (rdata : List Byte) (s : State) : State :=
  { s with sent := s.sent.set port (s.sent.get port ++ [⟨code, rargs, rdata⟩]) }

end Sys2Proof.Machine
end

