-- ==== Sys2Proof/Certificates/Slice0/Obligations.lean ====
section
/-! DEFINITION. The statements about the PRBC, none of them proved here. Each docstring names the rules of
spec/ its statement formalises. -/

open Sys2Proof Sys2Proof.Machine

/-! ## Encoding -/

/-- 30_encoding.md R61 to R65: the five command words, each with operands of its shape, decode to their
commands. -/
def Obligations.TableWordsDecode : Prop :=
  decode .P ⟨0x00000001#32, [0x0000000A#32, 0x00000000#32], [1, 2, 3, 4, 5, 6, 7, 8, 9, 10]⟩ =
      .ok (.write 10#32 0#32 [1, 2, 3, 4, 5, 6, 7, 8, 9, 10]) ∧
    decode .C ⟨0x00000002#32, [], []⟩ = .ok .read ∧
    decode .P ⟨0x00000003#32, [], []⟩ = .ok (.query .P) ∧
    decode .K ⟨0x00000004#32, [], []⟩ = .ok .clear ∧
    decode .H ⟨0x00000005#32, [0x00000010#32],
        [0xAA, 0x55, 0xAA, 0x55, 0xB0, 0x04, 0, 0, 6, 0, 0, 0, 0xF9, 0xFF, 0xFF, 0xFF]⟩ =
      .ok (.decode 16#32 [0xAA, 0x55, 0xAA, 0x55, 0xB0, 0x04, 0, 0, 6, 0, 0, 0, 0xF9, 0xFF, 0xFF, 0xFF])

/-- 30_encoding.md R59, R61 to R65, R72: decoding the request of a well-formed command on its own port
gives the command back, every operand at every value. -/
def Obligations.DecodeOfEncodeIsTheCommand : Prop :=
  ∀ i : Instr, i.wellFormed = true → decode i.port (encode i) = .ok i

/-- 30_encoding.md R59 to R65, R72: a transaction that decodes is the one encoding of a well-formed
command, on the port that command belongs to. -/
def Obligations.DecodedTransactionIsItsEncoding : Prop :=
  ∀ port r i, decode port r = .ok i → i.wellFormed = true ∧ i.port = port ∧ encode i = r

/-- 30_encoding.md R70, with R59, R60 and R72: a pending transaction decodes exactly when it is one of the
five legal forms, and any other sets ERR.ILLEGAL, answers ERR_ILLEGAL and changes nothing else,
whatever the state and the port. -/
def Obligations.OtherTransactionsAreIllegal : Prop :=
  ∀ (port : Port) (r : Request),
    ((∃ i, decode port r = .ok i) ↔
      (r.cw = 1#32 ∧ port = .P ∧ ∃ len skip, r.args = [len, skip] ∧ r.data.length = len.toNat) ∨
      (r.cw = 2#32 ∧ port = .C ∧ r.args = [] ∧ r.data = []) ∨
      (r.cw = 3#32 ∧ port ≠ .H ∧ r.args = [] ∧ r.data = []) ∨
      (r.cw = 4#32 ∧ port = .K ∧ r.args = [] ∧ r.data = []) ∨
      (r.cw = 5#32 ∧ port = .H ∧ (∃ size, r.args = [size]) ∧ r.data.length = 16)) ∧
    ∀ s rest, s.inputs = .take port :: rest → s.pend.get port = some r →
      (¬ ∃ i, decode port r = .ok i) →
      step s = .next (answered port .errIllegal [] []
        { s with inputs := rest, pend := s.pend.set port none, err := s.err ||| 4#32 })

/-- The bytes of 43_header_decode.md R109: every 16-byte window is four little-endian words, so the
statements about DECODE of four words are about every window. -/
def Obligations.WindowIsFourWords : Prop :=
  ∀ win : List Byte, win.length = 16 → ∃ magic length type ck,
    win = le32bytes magic ++ le32bytes length ++ le32bytes type ++ le32bytes ck

/-! ## Steps -/

/-- 00_scope.md R3: the step that takes a port whose pending transaction decodes to `i` is `exec i`, with
the port's pending command and the input that named the port consumed. -/
def Obligations.StepRunsTheDecodedCommand : Prop :=
  ∀ s port r rest i, s.inputs = .take port :: rest → s.pend.get port = some r → decode port r = .ok i →
    step s = exec i { s with inputs := rest, pend := s.pend.set port none }

/-- Log entry 8 (the model's own way to present a command as bits): when a flat word decodes, the next
step of `withFetchWord` is `exec` of what it decodes to, and the inputs are as they were. -/
def Obligations.PresentedWordRuns : Prop :=
  ∀ (s : State) nbits w i, decodeTableWord nbits w = some i →
    step (s.withFetchWord nbits w) = exec i { s with pend := s.pend.set i.port none }

/-- 30_encoding.md R71: an offered command becomes its port's pending command when the port has none. When
it has one, the offered command stays outside (still the next input) and the earlier one is performed
(log entry 4: that the earlier one is performed at that step is the model's choice). -/
def Obligations.OfferedCommandWaitsForItsPort : Prop :=
  ∀ s port r rest, s.inputs = .issue port r :: rest →
    (s.pend.get port = none →
      step s = .next { s with inputs := rest, pend := s.pend.set port (some r) }) ∧
    (∀ q, s.pend.get port = some q → step s = perform port q s)

/-- 60_exceptions.md R138: each pending port can be the next one performed, so both orders of two pending
commands are steps of the model; and when no input names a port, some pending port is performed. -/
def Obligations.AnyPendingPortCanBeNext : Prop :=
  (∀ (s : State) port q rest, s.pend.get port = some q →
    step { s with inputs := .take port :: rest } = perform port q { s with inputs := rest }) ∧
  (∀ (s : State) port, s.inputs = [] → port ∈ pendingPorts s →
    ∃ port' q d, s.pend.get port' = some q ∧ step s = perform port' q { s with draws := d })

/-- 70_reset_and_hazards.md R155: a run with nothing pending and nothing to come is over; a step changes
nothing. -/
def Obligations.FinishedRunStays : Prop :=
  ∀ s, RunOver s → step s = .next s

/-- 70_reset_and_hazards.md R142, 10_state.md R37, R38: hard reset from any state. No byte of STORE is a
written one any more, the next draw decides them (log entry 3), and no packet is left. The model's own:
the responses already received stay (log entry 5, DEDUCED), and so do the inputs after the reset (log
entry 4) and the parameters (log entry 2). -/
def Obligations.HardResetValues : Prop :=
  ∀ s rest, s.inputs = .hardReset :: rest →
    ∃ t, step s = .next t ∧
      t.cap = s.params.initCapacity ∧ t.rd = 0 ∧ t.wr = 0 ∧ t.tb = 0 ∧ t.cnt = 0 ∧ t.err = 0#32 ∧
      t.hdrResult = 0#32 ∧ t.hdrLength = 0#32 ∧ t.hdrType = 0#32 ∧ t.hdrInfo = 0#32 ∧
      (∀ port, t.pend.get port = none) ∧ (∀ a, t.store.get a = none) ∧
      t.fills = s.fills + 1 ∧ pkts t = some [] ∧
      t.sent = s.sent ∧ t.inputs = rest ∧ t.params = s.params

/-! ## WRITE -/

/-- 40_ring_write.md R77, R79, R80, R90: a WRITE with room at the head. The sub-header goes to
[WR, WR + 8) and the payload right after it; WR advances past both, CNT by one, and every other byte
and register stays. -/
def Obligations.WriteAtHead : Prop :=
  ∀ s len skip data, data.length = len.toNat → inFatal s = false → skip.toNat ≤ len.toNat →
    8 < spaceAtHead s → len.toNat + 8 ≤ spaceAtHead s → s.wr + 8 + len.toNat ≤ s.cap →
    ∃ m, exec (.write len skip data) s = .next (answered .P .ok [] []
        { s with store := m, wr := s.wr + 8 + len.toNat, cnt := s.cnt + 1 }) ∧
      ∀ a, m.get a =
        if s.wr ≤ a ∧ a < s.wr + 8 then (be32bytes len ++ be32bytes skip)[a - s.wr]?
        else if s.wr + 8 ≤ a ∧ a < s.wr + 8 + len.toNat then data[a - (s.wr + 8)]?
        else s.store.get a

/-- 40_ring_write.md R77, R79, R89, R90: a WRITE with room for its sub-header at the head but for its
payload only at the start. TB marks the end of the sub-header, the payload goes to [0, len), WR = len. -/
def Obligations.WriteAtStart : Prop :=
  ∀ s len skip data, data.length = len.toNat → inFatal s = false → skip.toNat ≤ len.toNat →
    8 < spaceAtHead s → spaceAtHead s < len.toNat + 8 → len.toNat + 8 ≤ spaceAtStart s → s.rd ≤ s.cap →
    ∃ m, exec (.write len skip data) s = .next (answered .P .ok [] []
        { s with store := m, tb := s.wr + 8, wr := len.toNat, cnt := s.cnt + 1 }) ∧
      ∀ a, m.get a =
        if a < len.toNat then data[a]?
        else if s.wr ≤ a ∧ a < s.wr + 8 then (be32bytes len ++ be32bytes skip)[a - s.wr]?
        else s.store.get a

/-- 40_ring_write.md R77, R83 to R88: a WRITE that must make room first and can. The live bytes move to
the front, the packet follows them, TB stays; CAP is the capacity of R83, R84 and R86: with room at the
present CAP, doubled when live >= CAP div 2 and CAP_MAX admits it, and kept otherwise; without, doubled
just often enough. Bytes past the packet are unspecified, drawn afresh (log entry 3). -/
def Obligations.WriteAfterMakingRoom : Prop :=
  ∀ s len skip data, LegalState s → data.length = len.toNat → inFatal s = false →
    skip.toNat ≤ len.toNat → fits len.toNat s = false → RoomReachable len.toNat s →
    ∃ m c f, exec (.write len skip data) s = .next (answered .P .ok [] []
        { s with
          cap := c, store := m, fills := f, rd := 0, wr := live s + 8 + len.toNat, cnt := s.cnt + 1 }) ∧
      s.fills < f ∧
      (∀ a, m.get a =
        if a < live s then liveByte s a
        else if a < live s + 8 then (be32bytes len ++ be32bytes skip)[a - live s]?
        else if a < live s + 8 + len.toNat then data[a - (live s + 8)]?
        else none) ∧
      (live s + need len.toNat ≤ s.cap →
        c = if s.cap / 2 ≤ live s ∧ admits s.params (2 * s.cap) = true then 2 * s.cap else s.cap) ∧
      (s.cap < live s + need len.toNat →
        ∃ k, c = s.cap * 2 ^ k ∧ live s + need len.toNat ≤ c ∧
          ∀ j < k, s.cap * 2 ^ j < live s + need len.toNat)

/-- 40_ring_write.md R86: a WRITE whose needed growth passes CAP_MAX sets ERR.FATAL, answers ERR_FATAL and
leaves every other piece of state as it was, whatever compactions or growths it tried. -/
def Obligations.WritePastCapMaxIsFatal : Prop :=
  ∀ s len skip data, LegalState s → data.length = len.toNat → inFatal s = false →
    skip.toNat ≤ len.toNat → ¬ RoomReachable len.toNat s →
    exec (.write len skip data) s =
      .next (answered .P .errFatal [] [] { s with err := s.err ||| 8#32 })

/-- 00_scope.md R8, 40_ring_write.md R85: with CAP_MAX = infinity every WRITE with skip <= len stores its
packet: it answers OK and the packet queue gets it as its last. -/
def Obligations.UnboundedWriteAlwaysStores : Prop :=
  ∀ s len skip data, LegalState s → s.params.capMax = none → data.length = len.toNat →
    inFatal s = false → skip.toNat ≤ len.toNat →
    ∃ t, exec (.write len skip data) s = .next t ∧ lastResponse .P t = some ⟨.ok, [], []⟩ ∧
      t.cnt = s.cnt + 1 ∧ t.err = s.err ∧
      ∃ ps, pkts s = some ps ∧ pkts t = some (ps ++ [⟨len, skip, data⟩])

/-- 40_ring_write.md R82, first sentence, and R78: skip > len outside the FATAL state sets ERR.BAD_SKIP,
answers ERR_SKIP and changes nothing else, with room or without. -/
def Obligations.WriteWithBadSkip : Prop :=
  ∀ s len skip data, data.length = len.toNat → inFatal s = false → len.toNat < skip.toNat →
    exec (.write len skip data) s =
      .next (answered .P .errSkip [] [] { s with err := s.err ||| 2#32 })

/-- 70_reset_and_hazards.md R149, 30_encoding.md R70: a WRITE term with more or fewer data bytes than `len`
is ILLEGAL and stores nothing. -/
def Obligations.WriteWithWrongLengthIsIllegal : Prop :=
  ∀ s len skip data, data.length ≠ len.toNat →
    exec (.write len skip data) s =
      .next (answered .P .errIllegal [] [] { s with err := s.err ||| 4#32 })

/-- The frame of WRITE in every state. Registers other than CAP, RD, WR, TB, CNT and ERR stay, and so do
the other ports' responses. When `fits` holds no room is made: CAP and RD stay, and every byte outside
the sub-header at WR and the payload (at WR + 8 when `headFit`, else at 0) stays (40_ring_write.md R79,
R80, R89). -/
def Obligations.WriteFrame : Prop :=
  ∀ s t len skip data, exec (.write len skip data) s = .next t →
    t.params = s.params ∧ t.hdrResult = s.hdrResult ∧ t.hdrLength = s.hdrLength ∧
    t.hdrType = s.hdrType ∧ t.hdrInfo = s.hdrInfo ∧ t.pend = s.pend ∧ t.inputs = s.inputs ∧
    t.draws = s.draws ∧ (∀ port, port ≠ .P → t.sent.get port = s.sent.get port) ∧
    (∀ b, 4 ≤ b → t.err.getLsbD b = s.err.getLsbD b) ∧
    (fits len.toNat s = true → t.cap = s.cap ∧ t.rd = s.rd ∧ t.fills = s.fills ∧
      ∀ a, ¬ (s.wr ≤ a ∧ a < s.wr + 8) →
        ¬ ((if headFit len.toNat s then s.wr + 8 else 0) ≤ a ∧
          a < (if headFit len.toNat s then s.wr + 8 else 0) + len.toNat) →
        storeByte t a = storeByte s a ∧ t.store.get a = s.store.get a)

/-- 40_ring_write.md R85: from a legal state the room loop ends, with the packet fitting or with the
growth past CAP_MAX. -/
def Obligations.RoomLoopEnds : Prop :=
  ∀ s len, LegalState s →
    makeRoom len s = .overCap ∨ ∃ s', makeRoom len s = .ready s' ∧ fits len s' = true

/-- 40_ring_write.md R87, R88: compaction to a capacity that holds the live bytes. The store is unwrapped
with RD = 0 and WR = live, TB and CNT stay, no packet is lost or reordered, and the bytes past the live
ones are drawn afresh (log entry 3). -/
def Obligations.CompactionKeepsPackets : Prop :=
  ∀ s c, LegalState s → live s ≤ c →
    ∃ t, compact c s = .ok t ∧ t.cap = c ∧ t.rd = 0 ∧ t.wr = live s ∧ t.tb = s.tb ∧ t.cnt = s.cnt ∧
      t.fills = s.fills + 1 ∧ wrapped t = false ∧ live t = live s ∧ pkts t = pkts s ∧
      ∀ a, t.store.get a = if a < live s then liveByte s a else none

/-! ## READ -/

/-- 41_ring_read.md R94: READ of an empty buffer outside the FATAL state sets ERR.EMPTY_READ, answers
ERR_EMPTY and changes nothing else. -/
def Obligations.EmptyReadIsReported : Prop :=
  ∀ s, inFatal s = false → s.cnt = 0 →
    exec .read s = .next (answered .C .errEmpty [] [] { s with err := s.err ||| 1#32 })

/-- 41_ring_read.md R95 to R98, in every state, whatever bytes STORE holds: by the sub-header at RD, READ
jumps to offset 0 exactly when RD + 8 + len > CAP, answers [len - skip] and the bytes from skip on, and
changes RD and CNT only. -/
def Obligations.ReadFollowsItsSubHeader : Prop :=
  ∀ s len skip view, inFatal s = false → 0 < s.cnt → skip.toNat ≤ len.toNat → s.rd + 8 ≤ s.cap →
    (∀ j < 8, some (storeByte s (s.rd + j)) = (be32bytes len ++ be32bytes skip)[j]?) →
    ∀ start, start = (if s.cap < s.rd + 8 + len.toNat then 0 else s.rd + 8) →
    start + len.toNat ≤ s.cap → view.length = len.toNat - skip.toNat →
    (∀ j < view.length, some (storeByte s (start + skip.toNat + j)) = view[j]?) →
    exec .read s = .next (answered .C .ok [len - skip] view
      { s with rd := start + len.toNat, cnt := s.cnt - 1 })

/-- 41_ring_read.md R96 to R99, 10_state.md R38: in every legal state with a packet, outside FATAL, READ
answers the oldest packet's bytes from skip on and removes exactly that packet. -/
def Obligations.ReadReturnsTheOldestPacket : Prop :=
  ∀ s, LegalState s → inFatal s = false → 0 < s.cnt →
    ∃ p ps t, pkts s = some (p :: ps) ∧
      t = answered .C .ok [p.len - p.skip] (p.data.drop p.skip.toNat)
        { s with
          rd := if s.cap < s.rd + 8 + p.len.toNat then p.len.toNat else s.rd + 8 + p.len.toNat
          cnt := s.cnt - 1 } ∧
      exec .read s = .next t ∧ pkts t = some ps

/-! ## QUERY and CLEAR -/

/-- 42_ring_control.md R102: command word 3 without operands is QUERY on P, C and K and illegal on H. On P,
C and K, in every state, QUERY answers [CNT, ERR] and changes nothing. A CNT of 2^32 or more has no
32-bit word: log entry 6. -/
def Obligations.QueryAnswersCountAndErrors : Prop :=
  (∀ port, port ≠ .H → decode port ⟨0x00000003#32, [], []⟩ = .ok (.query port)) ∧
    decode .H ⟨0x00000003#32, [], []⟩ = .error (.wrongPort .H .query) ∧
    ∀ s, (∀ port, port ≠ .H → ∃ w : Word, (s.cnt < 4294967296 → w.toNat = s.cnt) ∧
        exec (.query port) s = .next (answered port .ok [w, s.err] [] s)) ∧
      exec (.query .H) s = .next (answered .H .errIllegal [] [] { s with err := s.err ||| 4#32 })

/-- 42_ring_control.md R105: outside the FATAL state CLEAR zeroes CNT, RD and WR and ERR bits 0 to 2, keeps
every other ERR bit, CAP, TB and STORE, and empties the packet queue; in the FATAL state it answers
ERR_FATAL and changes nothing. -/
def Obligations.ClearDropsEveryPacket : Prop :=
  ∀ s, (inFatal s = false → ∃ e t,
      t = answered .K .ok [] [] { s with cnt := 0, rd := 0, wr := 0, err := e } ∧
      exec .clear s = .next t ∧ pkts t = some [] ∧
      ∀ b, e.getLsbD b = if b < 3 then false else s.err.getLsbD b) ∧
    (inFatal s = true → exec .clear s = .next (answered .K .errFatal [] [] s))

/-- 42_ring_control.md R106, 20_memory.md R47: a second CLEAR changes nothing more. -/
def Obligations.ClearIsIdempotent : Prop :=
  ∀ s t, exec .clear s = .next t → ∃ code, exec .clear t = .next (answered .K code [] [] t)

/-! ## DECODE -/

/-- 43_header_decode.md R112, R111: any size but 16 is MALFORMED_HEADER/SIZE with the observed size,
whatever the window holds and whatever the RBU state. -/
def Obligations.DecodeRejectsWrongSize : Prop :=
  ∀ s size win, win.length = 16 → size ≠ 16#32 →
    exec (.decode size win) s = .next (answered .H .ok [0x06#32, 0#32, 0#32, size] []
      { s with hdrResult := 0x06#32, hdrLength := 0#32, hdrType := 0#32, hdrInfo := size })

/-- 43_header_decode.md R113, R111: a wrong magic is UNRECOGNIZED_STREAM/MAGIC with the observed magic,
whatever the other fields hold. -/
def Obligations.DecodeRejectsWrongMagic : Prop :=
  ∀ s magic length type ck, magic ≠ 0x55AA55AA#32 →
    exec (.decode 16#32 (le32bytes magic ++ le32bytes length ++ le32bytes type ++ le32bytes ck)) s =
      .next (answered .H .ok [0x0F#32, 0#32, 0#32, magic] []
        { s with hdrResult := 0x0F#32, hdrLength := 0#32, hdrType := 0#32, hdrInfo := magic })

/-- 43_header_decode.md R114: a checksum other than the complement of the type is
MALFORMED_HEADER/CHECKSUM with the observed checksum. -/
def Obligations.DecodeRejectsWrongChecksum : Prop :=
  ∀ s length type ck, ck ≠ ~~~type →
    exec (.decode 16#32 (le32bytes 0x55AA55AA#32 ++ le32bytes length ++ le32bytes type ++ le32bytes ck)) s =
      .next (answered .H .ok [0x0A#32, 0#32, 0#32, ck] []
        { s with hdrResult := 0x0A#32, hdrLength := 0#32, hdrType := 0#32, hdrInfo := ck })

/-- 43_header_decode.md R116 to R118: a header that passes is VALID, with its length and type exposed and
IS_VIDEO set exactly for type 6; no length and no type is refused. -/
def Obligations.DecodeAcceptsEveryGoodHeader : Prop :=
  ∀ s length type,
    exec (.decode 16#32
        (le32bytes 0x55AA55AA#32 ++ le32bytes length ++ le32bytes type ++ le32bytes (~~~type))) s =
      .next (answered .H .ok [if type = 6#32 then 0x11#32 else 0x01#32, length, type, 0#32] []
        { s with
          hdrResult := if type = 6#32 then 0x11#32 else 0x01#32
          hdrLength := length
          hdrType := type
          hdrInfo := 0#32 })

/-- 43_header_decode.md R117 and R118 on the window's bytes: KIND is VALID exactly when size is 16, the first
bytes are AA 55 AA 55, and each checksum byte is the complement of its type byte; and IS_VIDEO is set
exactly when KIND is VALID and all 32 bits of the type are those of 6. -/
def Obligations.HeaderIsValidIff : Prop :=
  ∀ s t size win, win.length = 16 → exec (.decode size win) s = .next t →
    (hdrKind t = 1#2 ↔ size = 16#32 ∧ win.take 4 = [0xAA#8, 0x55#8, 0xAA#8, 0x55#8] ∧
      win.drop 12 = ((win.drop 8).take 4).map fun b => ~~~b) ∧
    (isVideo t = true ↔ hdrKind t = 1#2 ∧ (win.drop 8).take 4 = [6#8, 0#8, 0#8, 0#8])

/-- 30_encoding.md R70: a DECODE term whose window is not 16 bytes is ILLEGAL. -/
def Obligations.DecodeWithWrongWindowIsIllegal : Prop :=
  ∀ s size win, win.length ≠ 16 →
    exec (.decode size win) s =
      .next (answered .H .errIllegal [] [] { s with err := s.err ||| 4#32 })

/-! ## Errors and the FATAL state -/

/-- 60_exceptions.md R124, R125: in the FATAL state every well-formed WRITE (bad skip or not), READ (empty
or not) and CLEAR answers ERR_FATAL and changes nothing. -/
def Obligations.FatalStateAnswersFatal : Prop :=
  ∀ s i, inFatal s = true → i.wellFormed = true →
    (∃ len skip data, i = .write len skip data) ∨ i = .read ∨ i = .clear →
    exec i s = .next (answered i.port .errFatal [] [] s)

/-- 60_exceptions.md R126: a command that answers an error sets exactly the ERR bit of its code (EMPTY_READ
0, BAD_SKIP 1, ILLEGAL 2, FATAL 3) and changes nothing else; ERR_FATAL in the FATAL state changes not
even ERR. The second part says it of every pending transaction, illegal ones among them. -/
def Obligations.ErrorsArePrecise : Prop :=
  (∀ s t i r, exec i s = .next t → t.sent.get i.port = s.sent.get i.port ++ [r] → r.code ≠ .ok →
    t = answered i.port r.code [] []
      { s with err := s.err ||| BitVec.twoPow 32 (r.code.word.toNat - 1) } ∧
    (r.code = .errFatal → inFatal s = true → t.err = s.err)) ∧
  ∀ s t port q r, perform port q s = .next t → t.sent.get port = s.sent.get port ++ [r] → r.code ≠ .ok →
    t = answered port r.code [] []
      { s with pend := s.pend.set port none, err := s.err ||| BitVec.twoPow 32 (r.code.word.toNat - 1) } ∧
    (r.code = .errFatal → inFatal s = true → t.err = s.err)

/-- 10_state.md R22: a set ERR bit stays set under every command but CLEAR. -/
def Obligations.ErrorBitsAreSticky : Prop :=
  ∀ s t i b, exec i s = .next t → i ≠ .clear → s.err.getLsbD b = true → t.err.getLsbD b = true

/-- 70_reset_and_hazards.md R146, 60_exceptions.md R124: only hard reset leaves the FATAL state; under any
other step the ring stays as it is. -/
def Obligations.OnlyHardResetLeavesFatal : Prop :=
  ∀ s t, inFatal s = true → s.inputs.head? ≠ some .hardReset → step s = .next t →
    inFatal t = true ∧ t.cap = s.cap ∧ t.rd = s.rd ∧ t.wr = s.wr ∧ t.tb = s.tb ∧ t.cnt = s.cnt ∧
      t.store = s.store ∧ t.fills = s.fills

/-! ## Responses and frames over all commands -/

/-- 30_encoding.md R57, R66: a command gives exactly one response, on its own port; an error response has no
words and no bytes, and an OK one has its command's shape, DECODE's words being the result registers
after it. The parameters, the pending commands and the inputs stay. -/
def Obligations.OneResponseOfItsShape : Prop :=
  ∀ s t i, exec i s = .next t →
    t.params = s.params ∧ t.pend = s.pend ∧ t.inputs = s.inputs ∧ t.draws = s.draws ∧
    ∃ r, t.sent = s.sent.set i.port (s.sent.get i.port ++ [r]) ∧
      (r.code ≠ .ok → r.rargs = [] ∧ r.rdata = []) ∧
      (r.code = .ok → match i with
        | .write _ _ _ => r.rargs = [] ∧ r.rdata = []
        | .read => ∃ n : Word, r.rargs = [n] ∧ r.rdata.length = n.toNat
        | .query _ => (∃ n, r.rargs = [n, s.err]) ∧ r.rdata = []
        | .clear => r.rargs = [] ∧ r.rdata = []
        | .decode _ _ => r.rargs = [t.hdrResult, t.hdrLength, t.hdrType, t.hdrInfo] ∧ r.rdata = [])

/-- The frame of READ, QUERY, CLEAR and DECODE: none stores a byte or writes CAP or TB; READ moves RD and
CNT only, CLEAR RD, WR and CNT, and QUERY and DECODE no ring register (41_ring_read.md R99,
42_ring_control.md R102, R105, 43_header_decode.md R119). -/
def Obligations.NonWritingCommandsKeepStore : Prop :=
  ∀ s t i, exec i s = .next t → (∀ len skip data, i ≠ .write len skip data) →
    t.store = s.store ∧ t.fills = s.fills ∧ (∀ a, storeByte t a = storeByte s a) ∧
    t.cap = s.cap ∧ t.tb = s.tb ∧
    (i = .read → t.wr = s.wr) ∧
    (i ≠ .read → i ≠ .clear → t.rd = s.rd ∧ t.wr = s.wr ∧ t.cnt = s.cnt)

/-- 00_scope.md R2: no command of the RBU changes the HVU's registers, and no DECODE changes the ring; the
one thing they share is ERR. -/
def Obligations.UnitsAreIndependent : Prop :=
  ∀ s t i, exec i s = .next t →
    (i.port ≠ .H → t.hdrResult = s.hdrResult ∧ t.hdrLength = s.hdrLength ∧ t.hdrType = s.hdrType ∧
      t.hdrInfo = s.hdrInfo) ∧
    (i.port = .H → t.cap = s.cap ∧ t.rd = s.rd ∧ t.wr = s.wr ∧ t.tb = s.tb ∧ t.cnt = s.cnt ∧
      t.store = s.store ∧ t.fills = s.fills ∧ (i.wellFormed = true → t.err = s.err))

/-- 10_state.md R37, 40_ring_write.md R87: no command depends on an unspecified byte. From a legal state,
what a command does is the same whatever draw the unspecified bytes of STORE hold (log entry 3). -/
def Obligations.UnspecifiedBytesDecideNothing : Prop :=
  ∀ s t i f, LegalState s → exec i s = .next t →
    ∃ g, exec i { s with fills := f } = .next { t with fills := g }

/-- 20_memory.md R52: a DECODE and an RBU command give the same state in either order. -/
def Obligations.DecodeCommutesWithRingCommands : Prop :=
  ∀ s t i size win, win.length = 16 → i.port ≠ .H → exec i s = .next t →
    ∃ u v, exec (.decode size win) s = .next u ∧ exec i u = .next v ∧ exec (.decode size win) t = .next v

/-- 10_state.md R19: a command leaves CAP at CAP * 2^k; only a WRITE changes it, and to an admitted value. -/
def Obligations.CapOnlyDoubles : Prop :=
  ∀ s t i, exec i s = .next t → ∃ k, t.cap = s.cap * 2 ^ k ∧
    (k ≠ 0 → (∃ len skip data, i = .write len skip data) ∧ admits s.params t.cap = true)

/-- 10_state.md R21: a WRITE answered OK raises CNT by one, a READ answered OK lowers it by one (and it was
not 0), a CLEAR answered OK zeroes it, and no other command or error changes it. -/
def Obligations.CountFollowsTheResponses : Prop :=
  ∀ s t i r, exec i s = .next t → t.sent.get i.port = s.sent.get i.port ++ [r] →
    (t.cnt = match i, r.code with
      | .write _ _ _, .ok => s.cnt + 1
      | .read, .ok => s.cnt - 1
      | .clear, .ok => 0
      | _, _ => s.cnt) ∧
    (i = .read → r.code = .ok → 0 < s.cnt)

/-- 10_state.md R26, R27: the flags and the level outputs are the stated functions of CNT, ERR and
HDR_RESULT, and the outputs are 0, 0 and 0 after hard reset. -/
def Obligations.LevelOutputsFollowState : Prop :=
  (∀ s, (nonempty s = true ↔ s.cnt ≠ 0) ∧ (empty s = true ↔ s.cnt = 0) ∧
    (isVideo s = true ↔ s.hdrResult.getLsbD 4 = true) ∧
    (nonemptyO s = true ↔ s.cnt ≠ 0) ∧ (errO s = true ↔ s.err ≠ 0#32) ∧
    (fatalO s = true ↔ s.err.getLsbD 3 = true)) ∧
  ∀ s, nonemptyO (hardReset s) = false ∧ errO (hardReset s) = false ∧ fatalO (hardReset s) = false

/-! ## Invariants and runs -/

/-- 70_reset_and_hazards.md R143: the state after hard reset is legal for every legal pair of parameters, and
so is the model's own reset state. -/
def Obligations.ResetIsLegal : Prop :=
  (∀ params : Params, params.Legal → LegalState (State.resetWith params)) ∧ LegalState State.reset

/-- 10_state.md section 6: every step keeps the invariants. -/
def Obligations.StepKeepsLegalState : Prop :=
  ∀ s t, LegalState s → step s = .next t → LegalState t

/-- 70_reset_and_hazards.md R156, 00_scope.md R13: a legal state always steps: no access leaves the store, and
every command's rule ends. -/
def Obligations.LegalStatesNeverStop : Prop :=
  ∀ s, LegalState s → ∃ t, step s = .next t

/-- 10_state.md R36: 8 * CNT <= live <= CAP, and with a finite CAP_MAX CNT fits 32 bits. -/
def Obligations.CountIsBounded : Prop :=
  ∀ s, LegalState s → 8 * s.cnt ≤ live s ∧ live s ≤ s.cap ∧
    ∀ m, s.params.capMax = some m → s.cnt ≤ m / 8 ∧ s.cnt < 4294967296

/-- 10_state.md R38: the packet queue follows the responses. A WRITE answered OK appends its packet, a READ
answered OK answers the first packet and removes it, a CLEAR answered OK empties the queue, and every
other command leaves it. -/
def Obligations.QueueFollowsTheResponses : Prop :=
  ∀ s t i r, LegalState s → exec i s = .next t → t.sent.get i.port = s.sent.get i.port ++ [r] →
    ∃ ps qs, pkts s = some ps ∧ pkts t = some qs ∧
      match i, r.code with
      | .write len skip data, .ok => qs = ps ++ [⟨len, skip, data⟩]
      | .read, .ok => ∃ p, ps = p :: qs ∧ r = ⟨.ok, [p.len - p.skip], p.data.drop p.skip.toNat⟩
      | .clear, .ok => qs = []
      | _, _ => qs = ps

/-- 40_ring_write.md R90, 41_ring_read.md R97: from an empty legal buffer with room, a WRITE and then a READ
give the payload back from its skip on, whether it was placed at the head, at the start with the READ
jumping to it, or after growth. -/
def Obligations.WriteThenReadReturnsThePayload : Prop :=
  ∀ s len skip data, LegalState s → inFatal s = false → s.cnt = 0 → data.length = len.toNat →
    skip.toNat ≤ len.toNat → RoomReachable len.toNat s →
    ∃ t u, exec (.write len skip data) s = .next t ∧ exec .read t = .next u ∧
      lastResponse .C u = some ⟨.ok, [len - skip], data.drop skip.toNat⟩ ∧ u.cnt = 0 ∧ u.rd = u.wr

/-- 60_exceptions.md R139, 20_memory.md R54, 70_reset_and_hazards.md R155, R156: from every legal state with
finitely many inputs and no hard reset among them, whatever order they and the arbiter give, the run is
over after at most 2 * |inputs| + 4 steps and every port has received exactly one response for each of
its commands. -/
def Obligations.EveryIssuedCommandIsAnswered : Prop :=
  ∀ s, LegalState s → .hardReset ∉ s.inputs →
    ∃ t, Host.Core.run Sys2Proof.core (2 * s.inputs.length + 4) s = .next t ∧ RunOver t ∧ LegalState t ∧
      ∀ port, (t.sent.get port).length = (s.sent.get port).length + due port s

/-- 30_encoding.md R57, 60_exceptions.md R139: the account of responses. Every step but a hard reset keeps,
for each port, the responses received and those due together: no command is lost or answered twice. -/
def Obligations.EveryStepKeepsTheAccount : Prop :=
  ∀ s t, s.inputs.head? ≠ some .hardReset → step s = .next t →
    ∀ port, (t.sent.get port).length + due port t = (s.sent.get port).length + due port s

/-- 60_exceptions.md R139: under weak fairness of the arbiter (`Fair`) every command is answered, also when
commands keep arriving for ever: from each time on, each port receives in finite time the responses to
all that is pending or offered on it. -/
def Obligations.FairRunsAnswerEveryCommand : Prop :=
  ∀ more run, IsRun more run → Fair run → .hardReset ∉ (run 0).inputs → (∀ n, .hardReset ∉ more n) →
    ∀ n port, ∃ m, n ≤ m ∧
      ((run n).sent.get port).length + due port (run n) ≤ ((run m).sent.get port).length
end

