-- ==== Sys2Proof/Laws/Memory.lean ====
section
/-! SUPPORT. STORE: a read after a write, the bytes a write leaves alone, and that every memory
operation keeps the canonical form. -/

namespace Sys2Proof.Machine

namespace Memory

@[simp] theorem get_nil (i : Nat) : Memory.get [] i = none := rfl

@[simp] theorem get_cons (a : Nat) (b : Byte) (m : Memory) (i : Nat) :
    Memory.get ((a, b) :: m) i = if i = a then some b else Memory.get m i := rfl

/-- Every offset below the first entry is unlisted. -/
theorem get_eq_none_of_lt (m : Memory) (i : Nat) (h : ∀ x ∈ m, i < x.1) : m.get i = none := by
  induction m with
  | nil => rfl
  | cons x m ih =>
    have hx := h x (by simp)
    rw [show x = (x.1, x.2) from rfl, get_cons, if_neg (by omega)]
    exact ih fun y hy => h y (by simp [hy])

/-- A read after a write: the value written there, the old value anywhere else. -/
theorem get_set (m : Memory) (i j : Nat) (v : Byte) :
    (m.set i v).get j = if j = i then some v else m.get j := by
  induction m with
  | nil => simp [Memory.set]
  | cons x m ih =>
    obtain ⟨a, b⟩ := x
    simp only [Memory.set]
    by_cases h1 : i < a
    · rw [if_pos h1, get_cons]
    · rw [if_neg h1]
      by_cases h2 : i = a
      · subst h2
        rw [if_pos rfl, get_cons, get_cons]
        split_ifs <;> rfl
      · rw [if_neg h2, get_cons, get_cons, ih]
        split_ifs <;> first | rfl | omega

theorem mem_set (m : Memory) (i : Nat) (v : Byte) (x : Host.Cell) (h : x ∈ m.set i v) :
    x = (i, v) ∨ x ∈ m := by
  induction m with
  | nil => simpa [Memory.set] using h
  | cons y m ih =>
    obtain ⟨a, b⟩ := y
    simp only [Memory.set] at h
    split_ifs at h with h1 h2
    · simpa using h
    · rcases List.mem_cons.mp h with h | h
      · exact .inl h
      · exact .inr (by simp [h])
    · rcases List.mem_cons.mp h with h | h
      · exact .inr (by simp [h])
      · exact (ih h).imp id fun h => by simp [h]

theorem wf_nil : Memory.wf [] := List.Pairwise.nil

/-- A write of one byte keeps the canonical form. -/
theorem wf_set (m : Memory) (hm : m.wf) (i : Nat) (v : Byte) : (m.set i v).wf := by
  induction m with
  | nil => simp [Memory.set, Memory.wf]
  | cons x m ih =>
    obtain ⟨a, b⟩ := x
    obtain ⟨hlt, htail⟩ := List.pairwise_cons.mp hm
    simp only [Memory.set]
    split_ifs with h1 h2
    · refine List.pairwise_cons.mpr ⟨fun y hy => ?_, hm⟩
      rcases List.mem_cons.mp hy with rfl | hy
      · exact h1
      · exact lt_trans h1 (hlt y hy)
    · subst h2
      exact List.pairwise_cons.mpr ⟨hlt, htail⟩
    · refine List.pairwise_cons.mpr ⟨fun y hy => ?_, ih htail⟩
      rcases mem_set m i v y hy with rfl | hy
      · show a < i
        omega
      · exact hlt y hy

@[simp] theorem setBytes_nil (m : Memory) (i : Nat) : m.setBytes i [] = m := rfl

@[simp] theorem setBytes_cons (m : Memory) (i : Nat) (v : Byte) (vs : List Byte) :
    m.setBytes i (v :: vs) = (m.set i v).setBytes (i + 1) vs := rfl

/-- A write of several bytes keeps the canonical form. -/
theorem wf_setBytes (vs : List Byte) (m : Memory) (hm : m.wf) (i : Nat) : (m.setBytes i vs).wf := by
  induction vs generalizing m i with
  | nil => exact hm
  | cons v vs ih => exact ih _ (wf_set m hm i v) _

theorem mem_setBytes (vs : List Byte) (m : Memory) (i : Nat) (x : Host.Cell)
    (h : x ∈ m.setBytes i vs) : (i ≤ x.1 ∧ x.1 < i + vs.length) ∨ x ∈ m := by
  induction vs generalizing m i with
  | nil => exact .inr h
  | cons v vs ih =>
    rcases ih _ _ h with ⟨h1, h2⟩ | h
    · left; simp; omega
    · rcases mem_set m i v x h with rfl | h
      · left; simp
      · exact .inr h

/-- A read after a write of several bytes: `vs[j - i]` inside the written bytes, the old value outside
them. -/
theorem get_setBytes (vs : List Byte) (m : Memory) (i j : Nat) :
    (m.setBytes i vs).get j = if i ≤ j ∧ j < i + vs.length then vs[j - i]? else m.get j := by
  induction vs generalizing m i with
  | nil => rw [setBytes_nil, if_neg (by simp)]
  | cons v vs ih =>
    rw [setBytes_cons, ih, get_set]
    by_cases hj : j = i
    · subst hj
      rw [if_neg (by omega), if_pos rfl, if_pos (by simp), Nat.sub_self]
      rfl
    · rw [if_neg hj]
      by_cases hin : i + 1 ≤ j ∧ j < i + 1 + vs.length
      · rw [if_pos hin, if_pos (by simp; omega), show j - i = (j - (i + 1)) + 1 by omega]
        rfl
      · rw [if_neg hin, if_neg (by simp; omega)]

theorem get_setBytes_in (vs : List Byte) (m : Memory) {i j : Nat} (h1 : i ≤ j) (h2 : j < i + vs.length) :
    (m.setBytes i vs).get j = vs[j - i]? := by
  rw [get_setBytes, if_pos ⟨h1, h2⟩]

theorem get_setBytes_out (vs : List Byte) (m : Memory) {i j : Nat} (h : j < i ∨ i + vs.length ≤ j) :
    (m.setBytes i vs).get j = m.get j := by
  rw [get_setBytes, if_neg (by omega)]

@[simp] theorem ofBytes_nil (i : Nat) : Memory.ofBytes i [] = [] := rfl

@[simp] theorem ofBytes_cons (i : Nat) (v : Byte) (vs : List Byte) :
    Memory.ofBytes i (v :: vs) = (i, v) :: Memory.ofBytes (i + 1) vs := rfl

theorem mem_ofBytes (vs : List Byte) (i : Nat) (x : Host.Cell) (h : x ∈ Memory.ofBytes i vs) :
    i ≤ x.1 ∧ x.1 < i + vs.length := by
  induction vs generalizing i with
  | nil => simp at h
  | cons v vs ih =>
    rcases List.mem_cons.mp h with rfl | h
    · simp
    · have := ih _ h
      simp; omega

/-- A fresh store is in canonical form. -/
theorem wf_ofBytes (vs : List Byte) (i : Nat) : (Memory.ofBytes i vs).wf := by
  induction vs generalizing i with
  | nil => exact wf_nil
  | cons v vs ih =>
    exact List.pairwise_cons.mpr ⟨fun x hx => by have := mem_ofBytes vs _ x hx; simp; omega, ih _⟩

/-- A fresh store holds its bytes and nothing else. -/
theorem get_ofBytes (vs : List Byte) (i j : Nat) :
    (Memory.ofBytes i vs).get j = if i ≤ j ∧ j < i + vs.length then vs[j - i]? else none := by
  induction vs generalizing i with
  | nil => rw [ofBytes_nil, get_nil, if_neg (by simp)]
  | cons v vs ih =>
    rw [ofBytes_cons, get_cons, ih]
    by_cases hj : j = i
    · subst hj
      rw [if_pos rfl, if_pos (by simp), Nat.sub_self]
      rfl
    · rw [if_neg hj]
      by_cases hin : i + 1 ≤ j ∧ j < i + 1 + vs.length
      · rw [if_pos hin, if_pos (by simp; omega), show j - i = (j - (i + 1)) + 1 by omega]
        rfl
      · rw [if_neg hin, if_neg (by simp; omega)]

/-- `getBytes` answers `v` exactly when `v` is `n` bytes long and holds the byte at every offset. -/
theorem getBytes_eq_some (m : Memory) (n i : Nat) (v : List Byte) :
    m.getBytes i n = some v ↔ v.length = n ∧ ∀ j < n, m.get (i + j) = v[j]? := by
  induction n generalizing i v with
  | zero =>
    simp only [Memory.getBytes, Option.some.injEq, List.length_eq_zero_iff]
    exact ⟨fun h => ⟨h.symm, fun j hj => absurd hj (Nat.not_lt_zero j)⟩, fun h => h.1.symm⟩
  | succ n ih =>
    simp only [Memory.getBytes]
    constructor
    · intro h
      split at h
      · next b bs hb hbs =>
        cases h
        obtain ⟨hl, hg⟩ := (ih _ _).mp hbs
        refine ⟨by simp [hl], fun j hj => ?_⟩
        cases j with
        | zero => simpa using hb
        | succ j => simpa [Nat.add_assoc, Nat.add_comm 1 j] using hg j (by omega)
      · cases h
    · rintro ⟨hl, hg⟩
      cases v with
      | nil => simp at hl
      | cons b bs =>
        have hb : m.get i = some b := by simpa using hg 0 (by omega)
        have hbs : m.getBytes (i + 1) n = some bs := by
          refine (ih _ _).mpr ⟨by simpa using hl, fun j hj => ?_⟩
          have := hg (j + 1) (by omega)
          simpa [Nat.add_assoc, Nat.add_comm 1 j] using this
        rw [hb, hbs]

/-- Two stores that agree on the `n` offsets from `i` on give the same bytes there. -/
theorem getBytes_congr (m m' : Memory) (n i : Nat) (h : ∀ j, i ≤ j → j < i + n → m'.get j = m.get j) :
    m'.getBytes i n = m.getBytes i n := by
  induction n generalizing i with
  | zero => rfl
  | succ n ih =>
    simp only [Memory.getBytes]
    rw [h i (le_refl i) (by omega), ih (i + 1) fun j h1 h2 => h j (by omega) (by omega)]

end Memory

end Sys2Proof.Machine
end

