-- ==== Sys2Proof/Laws/State.lean ====
section
/-! SUPPORT. What each state update does to each field, true by rfl, so that no proof unfolds a record
update; and reading one port's thing after replacing another's. -/

namespace Sys2Proof.Machine

namespace PerPort

@[simp] theorem get_set_same {α : Type} (t : PerPort α) (p : Port) (x : α) : (t.set p x).get p = x := by
  cases p <;> rfl

@[simp] theorem get_set_other {α : Type} (t : PerPort α) {p q : Port} (x : α) (h : q ≠ p) :
    (t.set p x).get q = t.get q := by
  cases p <;> cases q <;> first | rfl | exact absurd rfl h

@[simp] theorem set_set_same {α : Type} (t : PerPort α) (p : Port) (x y : α) :
    (t.set p x).set p y = t.set p y := by
  cases p <;> rfl

theorem set_set_comm {α : Type} (t : PerPort α) {p q : Port} (x y : α) (h : q ≠ p) :
    (t.set p x).set q y = (t.set q y).set p x := by
  cases p <;> cases q <;> first | rfl | exact absurd rfl h

@[simp] theorem set_get_same {α : Type} (t : PerPort α) (p : Port) : t.set p (t.get p) = t := by
  cases p <;> rfl

end PerPort

section Respond
variable (port : Port) (r : Response) (s : State)

@[simp] theorem respond_params : (respond port r s).params = s.params := rfl
@[simp] theorem respond_cap : (respond port r s).cap = s.cap := rfl
@[simp] theorem respond_rd : (respond port r s).rd = s.rd := rfl
@[simp] theorem respond_wr : (respond port r s).wr = s.wr := rfl
@[simp] theorem respond_tb : (respond port r s).tb = s.tb := rfl
@[simp] theorem respond_cnt : (respond port r s).cnt = s.cnt := rfl
@[simp] theorem respond_err : (respond port r s).err = s.err := rfl
@[simp] theorem respond_hdrResult : (respond port r s).hdrResult = s.hdrResult := rfl
@[simp] theorem respond_hdrLength : (respond port r s).hdrLength = s.hdrLength := rfl
@[simp] theorem respond_hdrType : (respond port r s).hdrType = s.hdrType := rfl
@[simp] theorem respond_hdrInfo : (respond port r s).hdrInfo = s.hdrInfo := rfl
@[simp] theorem respond_store : (respond port r s).store = s.store := rfl
@[simp] theorem respond_fills : (respond port r s).fills = s.fills := rfl
@[simp] theorem respond_pend : (respond port r s).pend = s.pend := rfl
@[simp] theorem respond_sent :
    (respond port r s).sent = s.sent.set port (s.sent.get port ++ [r]) := rfl
@[simp] theorem respond_inputs : (respond port r s).inputs = s.inputs := rfl
@[simp] theorem respond_draws : (respond port r s).draws = s.draws := rfl

theorem respondOk_eq (rargs : List Word) (rdata : List Byte) :
    respondOk port rargs rdata s = answered port .ok rargs rdata s := rfl

theorem respondErr_eq (code : RspCode) : respondErr port code s = answered port code [] [] s := rfl

/-- `raise E` changes ERR and the port's responses (60_exceptions.md R126). -/
theorem raiseErr_eq (e : ErrBit) :
    raiseErr e port s = answered port e.code [] [] { s with err := errSet e s.err } := rfl

end Respond

section RaiseErr
variable (e : ErrBit) (port : Port) (s : State)

@[simp] theorem raiseErr_params : (raiseErr e port s).params = s.params := rfl
@[simp] theorem raiseErr_cap : (raiseErr e port s).cap = s.cap := rfl
@[simp] theorem raiseErr_rd : (raiseErr e port s).rd = s.rd := rfl
@[simp] theorem raiseErr_wr : (raiseErr e port s).wr = s.wr := rfl
@[simp] theorem raiseErr_tb : (raiseErr e port s).tb = s.tb := rfl
@[simp] theorem raiseErr_cnt : (raiseErr e port s).cnt = s.cnt := rfl
@[simp] theorem raiseErr_err : (raiseErr e port s).err = errSet e s.err := rfl
@[simp] theorem raiseErr_hdrResult : (raiseErr e port s).hdrResult = s.hdrResult := rfl
@[simp] theorem raiseErr_hdrLength : (raiseErr e port s).hdrLength = s.hdrLength := rfl
@[simp] theorem raiseErr_hdrType : (raiseErr e port s).hdrType = s.hdrType := rfl
@[simp] theorem raiseErr_hdrInfo : (raiseErr e port s).hdrInfo = s.hdrInfo := rfl
@[simp] theorem raiseErr_store : (raiseErr e port s).store = s.store := rfl
@[simp] theorem raiseErr_fills : (raiseErr e port s).fills = s.fills := rfl
@[simp] theorem raiseErr_pend : (raiseErr e port s).pend = s.pend := rfl
@[simp] theorem raiseErr_sent :
    (raiseErr e port s).sent = s.sent.set port (s.sent.get port ++ [⟨e.code, [], []⟩]) := rfl
@[simp] theorem raiseErr_inputs : (raiseErr e port s).inputs = s.inputs := rfl
@[simp] theorem raiseErr_draws : (raiseErr e port s).draws = s.draws := rfl

end RaiseErr

section Validate
variable (size : Word) (win : List Byte) (s : State)

/-- DECODE's checks write the four HVU result registers and nothing else (00_scope.md R2). -/
theorem validate_frame : ∃ r l t i, validate size win s =
    { s with hdrResult := r, hdrLength := l, hdrType := t, hdrInfo := i } := by
  unfold validate
  split
  · exact ⟨_, _, _, _, rfl⟩
  split
  · exact ⟨_, _, _, _, rfl⟩
  split
  · exact ⟨_, _, _, _, rfl⟩
  · exact ⟨_, _, _, _, rfl⟩

@[simp] theorem validate_params : (validate size win s).params = s.params := by
  obtain ⟨_, _, _, _, h⟩ := validate_frame size win s; rw [h]
@[simp] theorem validate_cap : (validate size win s).cap = s.cap := by
  obtain ⟨_, _, _, _, h⟩ := validate_frame size win s; rw [h]
@[simp] theorem validate_rd : (validate size win s).rd = s.rd := by
  obtain ⟨_, _, _, _, h⟩ := validate_frame size win s; rw [h]
@[simp] theorem validate_wr : (validate size win s).wr = s.wr := by
  obtain ⟨_, _, _, _, h⟩ := validate_frame size win s; rw [h]
@[simp] theorem validate_tb : (validate size win s).tb = s.tb := by
  obtain ⟨_, _, _, _, h⟩ := validate_frame size win s; rw [h]
@[simp] theorem validate_cnt : (validate size win s).cnt = s.cnt := by
  obtain ⟨_, _, _, _, h⟩ := validate_frame size win s; rw [h]
@[simp] theorem validate_err : (validate size win s).err = s.err := by
  obtain ⟨_, _, _, _, h⟩ := validate_frame size win s; rw [h]
@[simp] theorem validate_store : (validate size win s).store = s.store := by
  obtain ⟨_, _, _, _, h⟩ := validate_frame size win s; rw [h]
@[simp] theorem validate_fills : (validate size win s).fills = s.fills := by
  obtain ⟨_, _, _, _, h⟩ := validate_frame size win s; rw [h]
@[simp] theorem validate_pend : (validate size win s).pend = s.pend := by
  obtain ⟨_, _, _, _, h⟩ := validate_frame size win s; rw [h]
@[simp] theorem validate_sent : (validate size win s).sent = s.sent := by
  obtain ⟨_, _, _, _, h⟩ := validate_frame size win s; rw [h]
@[simp] theorem validate_inputs : (validate size win s).inputs = s.inputs := by
  obtain ⟨_, _, _, _, h⟩ := validate_frame size win s; rw [h]
@[simp] theorem validate_draws : (validate size win s).draws = s.draws := by
  obtain ⟨_, _, _, _, h⟩ := validate_frame size win s; rw [h]

end Validate

section Reset
variable (s : State)

@[simp] theorem hardReset_params : (hardReset s).params = s.params := rfl
@[simp] theorem hardReset_cap : (hardReset s).cap = s.params.initCapacity := rfl
@[simp] theorem hardReset_rd : (hardReset s).rd = 0 := rfl
@[simp] theorem hardReset_wr : (hardReset s).wr = 0 := rfl
@[simp] theorem hardReset_tb : (hardReset s).tb = 0 := rfl
@[simp] theorem hardReset_cnt : (hardReset s).cnt = 0 := rfl
@[simp] theorem hardReset_err : (hardReset s).err = 0#32 := rfl
@[simp] theorem hardReset_hdrResult : (hardReset s).hdrResult = 0#32 := rfl
@[simp] theorem hardReset_hdrLength : (hardReset s).hdrLength = 0#32 := rfl
@[simp] theorem hardReset_hdrType : (hardReset s).hdrType = 0#32 := rfl
@[simp] theorem hardReset_hdrInfo : (hardReset s).hdrInfo = 0#32 := rfl
@[simp] theorem hardReset_store : (hardReset s).store = [] := rfl
@[simp] theorem hardReset_fills : (hardReset s).fills = s.fills + 1 := rfl
@[simp] theorem hardReset_pend : (hardReset s).pend = ⟨none, none, none, none⟩ := rfl
@[simp] theorem hardReset_sent : (hardReset s).sent = s.sent := rfl
@[simp] theorem hardReset_inputs : (hardReset s).inputs = s.inputs := rfl
@[simp] theorem hardReset_draws : (hardReset s).draws = s.draws := rfl

end Reset

end Sys2Proof.Machine
end

