-- ==== Sys2Proof/Laws/Words.lean ====
section
/-! SUPPORT. The byte orders of 00_scope.md R12 round-trip. -/

namespace Sys2Proof.Machine

@[simp] theorem length_be32bytes (v : Word) : (be32bytes v).length = 4 := by simp [be32bytes]

@[simp] theorem length_le32bytes (v : Word) : (le32bytes v).length = 4 := by simp [le32bytes]

@[simp] theorem length_subHeader (len skip : Word) : (subHeader len skip).length = 8 := by
  simp [subHeader]

/-- `be32bytes(v)` is the list whose be32 is v (00_scope.md R12). -/
@[simp] theorem be32of_be32bytes (v : Word) : be32of (be32bytes v) = v := by
  apply BitVec.eq_of_toNat_eq
  have := v.isLt
  simp only [be32bytes, be32of, be32, BitVec.toNat_ofNat]
  omega

/-- `le32bytes(v)` is the list whose le32 is v (00_scope.md R12). -/
theorem le32_le32bytes (v : Word) :
    le32 (BitVec.ofNat 8 v.toNat) (BitVec.ofNat 8 (v.toNat / 256)) (BitVec.ofNat 8 (v.toNat / 65536))
      (BitVec.ofNat 8 (v.toNat / 16777216)) = v := by
  apply BitVec.eq_of_toNat_eq
  have := v.isLt
  simp only [le32, BitVec.toNat_ofNat]
  omega

/-- Every four bytes are the `be32bytes` of their be32 (00_scope.md R12). -/
theorem be32bytes_be32 (b0 b1 b2 b3 : Byte) : be32bytes (be32 b0 b1 b2 b3) = [b0, b1, b2, b3] := by
  have h0 := b0.isLt
  have h1 := b1.isLt
  have h2 := b2.isLt
  have h3 := b3.isLt
  simp only [be32bytes, be32, BitVec.toNat_ofNat, List.cons.injEq, and_true]
  refine ⟨?_, ?_, ?_, ?_⟩ <;> (apply BitVec.eq_of_toNat_eq; simp only [BitVec.toNat_ofNat]; omega)

end Sys2Proof.Machine
end

