-- ==== Sys2Proof/Laws/Ops.lean ====
section
/-! SUPPORT. One lemma per shared operation: everything it can do. Later proofs cite these and do not
unfold the operation. -/

namespace Sys2Proof.Machine

/-- A byte that a rule wrote is what STORE holds there. -/
theorem storeByte_of_get {s : State} {a : Nat} {b : Byte} (h : s.store.get a = some b) :
    storeByte s a = b := by
  rw [storeByte, h]

/-- What STORE holds at an offset depends only on that offset's written byte and, where there is none, on
the draw. -/
theorem storeByte_congr {s s' : State} {a : Nat} (hget : s'.store.get a = s.store.get a)
    (hfills : s'.fills = s.fills) : storeByte s' a = storeByte s a := by
  rw [storeByte, storeByte, hget, hfills]

/-- `MemRead` answers exactly for an access inside the store, and with the bytes STORE holds. -/
theorem memRead_eq_ok (addr n : Nat) (s : State) (v : List Byte) :
    memRead addr n s = .ok v ↔
      addr + n ≤ s.cap ∧ v.length = n ∧ ∀ j < n, some (storeByte s (addr + j)) = v[j]? := by
  unfold memRead
  split_ifs with h
  · simp; omega
  · simp only [Except.ok.injEq]
    constructor
    · rintro rfl
      exact ⟨by omega, by simp, fun j hj => by simp [hj]⟩
    · rintro ⟨-, hl, hg⟩
      refine List.ext_getElem? fun j => ?_
      by_cases hj : j < n
      · rw [← hg j hj]
        simp [hj]
      · rw [List.getElem?_eq_none (by simp; omega), List.getElem?_eq_none (by omega)]

theorem memRead_length {addr n : Nat} {s : State} {v : List Byte} (h : memRead addr n s = .ok v) :
    v.length = n := ((memRead_eq_ok ..).mp h).2.1

/-- `MemRead` reads only CAP and the bytes it names. -/
theorem memRead_congr (addr n : Nat) (s s' : State) (hcap : s'.cap = s.cap)
    (h : ∀ j, addr ≤ j → j < addr + n → storeByte s' j = storeByte s j) :
    memRead addr n s' = memRead addr n s := by
  unfold memRead
  rw [hcap]
  split_ifs
  · rfl
  · rw [List.map_congr_left fun j hj => h (addr + j) (by omega) (by simp at hj; omega)]

/-- `MemRead` fails only outside the store (00_scope.md R13). -/
theorem memRead_error {addr n : Nat} {s : State} {f : Fault} (h : memRead addr n s = .error f) :
    s.cap < addr + n ∧ f = .outsideStore := by
  rw [memRead] at h
  split_ifs at h with hb
  cases h
  exact ⟨hb, rfl⟩

/-- `memGiven` answers `v` exactly for an access inside the store whose bytes were all written. -/
theorem memGiven_eq_some (addr n : Nat) (s : State) (v : List Byte) :
    memGiven addr n s = some v ↔
      addr + n ≤ s.cap ∧ v.length = n ∧ ∀ j < n, s.store.get (addr + j) = v[j]? := by
  rw [memGiven, ← Memory.getBytes_eq_some]
  split_ifs with h
  · simp; omega
  · exact ⟨fun h' => ⟨by omega, h'⟩, fun h' => h'.2⟩

/-- Where a rule wrote every byte, `MemRead` reads what it wrote, whatever the draw. -/
theorem memRead_of_given {addr n : Nat} {s : State} {v : List Byte} (h : memGiven addr n s = some v) :
    memRead addr n s = .ok v := by
  obtain ⟨h1, h2, h3⟩ := (memGiven_eq_some ..).mp h
  refine (memRead_eq_ok ..).mpr ⟨h1, h2, fun j hj => ?_⟩
  have hv := h3 j hj
  rw [List.getElem?_eq_getElem (by omega)] at hv ⊢
  rw [storeByte_of_get hv]

/-- `memGiven` reads only CAP and the written bytes it names. -/
theorem memGiven_congr (addr n : Nat) (s s' : State) (hcap : s'.cap = s.cap)
    (h : ∀ j, addr ≤ j → j < addr + n → s'.store.get j = s.store.get j) :
    memGiven addr n s' = memGiven addr n s := by
  rw [memGiven, memGiven, hcap, Memory.getBytes_congr _ _ _ _ h]

/-- `MemWrite` inside the store writes exactly its bytes. -/
theorem memWrite_eq_ok (addr : Nat) (v : List Byte) (s s' : State) :
    memWrite addr v s = .ok s' ↔
      addr + v.length ≤ s.cap ∧ s' = { s with store := s.store.setBytes addr v } := by
  rw [memWrite]
  split_ifs with h
  · simp; omega
  · simp only [Except.ok.injEq]
    exact ⟨fun h' => ⟨by omega, h'.symm⟩, fun h' => h'.2.symm⟩

theorem memWrite_ok (addr : Nat) (v : List Byte) (s : State) (h : addr + v.length ≤ s.cap) :
    memWrite addr v s = .ok { s with store := s.store.setBytes addr v } :=
  (memWrite_eq_ok ..).mpr ⟨h, rfl⟩

/-- The live bytes are `live` many (40_ring_write.md R87). -/
theorem liveBytes_length {s : State} {v : List Byte} (h : liveBytes s = .ok v) : v.length = live s := by
  unfold liveBytes at h
  unfold live
  split_ifs at h ⊢ with hw
  · split at h
    · next t ht =>
      split at h
      · next d hd =>
        cases h
        rw [List.length_append, memRead_length ht, memRead_length hd]
      · cases h
    · cases h
  · exact memRead_length h

/-- Compaction: the live bytes at the front, everything else drawn afresh, RD = 0 and WR = live; TB, CNT
and all that is not the ring stay (40_ring_write.md R87, R88). -/
theorem compact_eq_ok (newCap : Nat) (s s' : State) :
    compact newCap s = .ok s' ↔ ∃ v, liveBytes s = .ok v ∧ v.length = live s ∧
      s' = { s with
        cap := newCap, store := Memory.ofBytes 0 v, fills := s.fills + 1, rd := 0, wr := live s } := by
  unfold compact
  constructor
  · intro h
    split at h
    · next v hv =>
      cases h
      exact ⟨v, hv, liveBytes_length hv, by rw [liveBytes_length hv]⟩
    · cases h
  · rintro ⟨v, hv, hl, rfl⟩
    rw [hv, ← hl]

/-- Four bytes are the big-endian bytes of exactly one word (00_scope.md R12). -/
theorem be32of_eq_iff {v : List Byte} (hv : v.length = 4) (w : Word) : be32of v = w ↔ v = be32bytes w := by
  match v, hv with
  | [b0, b1, b2, b3], _ =>
    constructor
    · rintro rfl
      exact (be32bytes_be32 ..).symm
    · intro hb
      rw [hb, be32of_be32bytes]

/-- Eight bytes are the sub-header of exactly one length and skip (20_memory.md R42). -/
theorem eq_subHeader_iff {v : List Byte} (hv : v.length = 8) (len skip : Word) :
    v = subHeader len skip ↔ be32of (v.take 4) = len ∧ be32of (v.drop 4) = skip := by
  rw [be32of_eq_iff (by simp [hv]), be32of_eq_iff (by simp [hv])]
  constructor
  · rintro rfl
    exact ⟨List.take_left' (by simp), List.drop_left' (by simp)⟩
  · rintro ⟨h1, h2⟩
    rw [← List.take_append_drop 4 v, h1, h2, subHeader]

/-- The sub-header at `h` is the one whose bytes STORE holds there (20_memory.md R42). -/
theorem readSubHeader_eq_ok (h : Nat) (s : State) (len skip : Word) :
    readSubHeader h s = .ok (len, skip) ↔
      h + 8 ≤ s.cap ∧ ∀ j < 8, some (storeByte s (h + j)) = (subHeader len skip)[j]? := by
  constructor
  · intro hr
    unfold readSubHeader at hr
    split at hr
    · next v hv =>
      split at hr
      · next w hw =>
        obtain ⟨h1, h2, h3⟩ := (memRead_eq_ok ..).mp hv
        obtain ⟨h4, h5, h6⟩ := (memRead_eq_ok ..).mp hw
        simp only [Except.ok.injEq, Prod.mk.injEq] at hr
        obtain rfl := (be32of_eq_iff h2 len).mp hr.1
        obtain rfl := (be32of_eq_iff h5 skip).mp hr.2
        refine ⟨by omega, fun j hj => ?_⟩
        by_cases hj4 : j < 4
        · rw [h3 j hj4, subHeader, List.getElem?_append_left (by simpa using hj4)]
        · rw [subHeader, List.getElem?_append_right (by simp; omega), length_be32bytes,
            ← h6 (j - 4) (by omega), show h + 4 + (j - 4) = h + j by omega]
      · cases hr
    · cases hr
  · rintro ⟨h1, h2⟩
    have ha : memRead h 4 s = .ok (be32bytes len) := by
      refine (memRead_eq_ok ..).mpr ⟨by omega, rfl, fun j hj => ?_⟩
      rw [h2 j (by omega), subHeader, List.getElem?_append_left (by simpa using hj)]
    have hb : memRead (h + 4) 4 s = .ok (be32bytes skip) := by
      refine (memRead_eq_ok ..).mpr ⟨by omega, rfl, fun j hj => ?_⟩
      rw [Nat.add_assoc, h2 (4 + j) (by omega), subHeader,
        List.getElem?_append_right (by simp), length_be32bytes, Nat.add_sub_cancel_left]
    rw [readSubHeader, ha, hb]
    simp

/-- A sub-header that a rule wrote is the one READ reads, whatever the draw. -/
theorem readSubHeader_of_given {h : Nat} {s : State} {len skip : Word} (hcap : h + 8 ≤ s.cap)
    (hget : ∀ j < 8, s.store.get (h + j) = (subHeader len skip)[j]?) :
    readSubHeader h s = .ok (len, skip) := by
  refine (readSubHeader_eq_ok ..).mpr ⟨hcap, fun j hj => ?_⟩
  have hv := hget j hj
  rw [List.getElem?_eq_getElem (by simpa using hj)] at hv ⊢
  rw [storeByte_of_get hv]

/-- The slot at an offset depends only on CAP and its 8 sub-header bytes. -/
theorem slotAt_congr (h : Nat) (s s' : State) (hcap : s'.cap = s.cap)
    (hget : ∀ j, h ≤ j → j < h + 8 → s'.store.get j = s.store.get j) : slotAt h s' = slotAt h s := by
  unfold slotAt payloadStart
  rw [memGiven_congr h _ s s' hcap hget, hcap]

/-- A slot's packet depends only on CAP and its payload bytes. -/
theorem packet_congr (x : Slot) (s s' : State) (hcap : s'.cap = s.cap)
    (hget : ∀ j, x.pay ≤ j → j < x.stop → s'.store.get j = s.store.get j) :
    x.packet s' = x.packet s := by
  unfold Slot.packet
  rw [memGiven_congr x.pay x.len.toNat s s' hcap hget]

/-- What a slot found at `h` says: its sub-header is whole and inside the store, and its payload starts
right after it or, when that would pass CAP, at offset 0 (10_state.md R35). -/
theorem slotAt_eq_some (h : Nat) (s : State) (x : Slot) :
    slotAt h s = some x ↔ x.off = h ∧ x.pay = payloadStart h x.len.toNat s ∧ h + 8 ≤ s.cap ∧
      ∀ j < 8, s.store.get (h + j) = (subHeader x.len x.skip)[j]? := by
  unfold slotAt
  constructor
  · intro hx
    split at hx
    · next v hv =>
      obtain ⟨h1, h2, h3⟩ := (memGiven_eq_some ..).mp hv
      cases hx
      refine ⟨rfl, rfl, h1, ?_⟩
      rw [← (eq_subHeader_iff h2 _ _).mpr ⟨rfl, rfl⟩]
      exact h3
    · cases hx
  · rintro ⟨h1, h2, h3, h4⟩
    rw [(memGiven_eq_some h 8 s (subHeader x.len x.skip)).mpr ⟨h3, by simp, h4⟩]
    obtain ⟨e1, e2⟩ := (eq_subHeader_iff (by simp) x.len x.skip).mp rfl
    obtain ⟨off, len, skip, pay⟩ := x
    simp_all

/-- A sub-header walk of `n + 1` packets is the first packet and a walk of `n` from its end. -/
theorem slotsFrom_succ (n h : Nat) (s : State) (xs : List Slot) (last : Nat) :
    slotsFrom (n + 1) h s = some (xs, last) ↔
      ∃ x rest, slotAt h s = some x ∧ slotsFrom n x.stop s = some (rest, last) ∧ xs = x :: rest := by
  rw [slotsFrom]
  constructor
  · intro hx
    split at hx
    · next x hx1 =>
      split at hx
      · next rest l hx2 =>
        simp only [Option.some.injEq, Prod.mk.injEq] at hx
        obtain ⟨rfl, rfl⟩ := hx
        exact ⟨x, rest, hx1, hx2, rfl⟩
      · cases hx
    · cases hx
  · rintro ⟨x, rest, h1, h2, rfl⟩
    rw [h1]
    simp only [h2]

/-- A sub-header walk of `n` packets finds `n` slots. -/
theorem slotsFrom_length {n h : Nat} {s : State} {xs : List Slot} {last : Nat}
    (hx : slotsFrom n h s = some (xs, last)) : xs.length = n := by
  induction n generalizing h xs with
  | zero => simp only [slotsFrom, Option.some.injEq, Prod.mk.injEq] at hx; simp [← hx.1]
  | succ n ih =>
    obtain ⟨x, rest, -, h2, rfl⟩ := (slotsFrom_succ ..).mp hx
    simp [ih h2]

/-- Walks compose: `m` packets and then `n` more. -/
theorem slotsFrom_add (m n h : Nat) (s : State) (xs ys : List Slot) (mid last : Nat)
    (hx : slotsFrom m h s = some (xs, mid)) (hy : slotsFrom n mid s = some (ys, last)) :
    slotsFrom (m + n) h s = some (xs ++ ys, last) := by
  induction m generalizing h xs with
  | zero =>
    simp only [slotsFrom, Option.some.injEq, Prod.mk.injEq] at hx
    obtain ⟨rfl, rfl⟩ := hx
    simpa using hy
  | succ m ih =>
    obtain ⟨x, rest, h1, h2, rfl⟩ := (slotsFrom_succ ..).mp hx
    rw [show m + 1 + n = (m + n) + 1 by omega]
    exact (slotsFrom_succ ..).mpr ⟨x, rest ++ ys, h1, ih _ _ h2, rfl⟩

/-- The slot of the next packet follows the walk (10_state.md R35: h_{i+1} = end(h_i)). -/
theorem packetsOf_append (xs ys : List Slot) (s : State) :
    packetsOf (xs ++ ys) s =
      match packetsOf xs s, packetsOf ys s with
      | some ps, some qs => some (ps ++ qs)
      | _, _ => none := by
  induction xs with
  | nil => simp only [List.nil_append, packetsOf]; cases packetsOf ys s <;> rfl
  | cons x xs ih =>
    simp only [List.cons_append, packetsOf, ih]
    cases x.packet s <;> cases packetsOf xs s <;> cases packetsOf ys s <;> rfl

end Sys2Proof.Machine
end

