-- ==== Sys2Proof/Laws/Ring.lean ====
section
/-! SUPPORT. The commands of the RBU: what the room loop, the placement of a packet, and each meaning
come to. -/

namespace Sys2Proof.Machine

/-- Growth or compaction as the room loop runs it. -/
theorem compactRoom_ready {newCap : Nat} {s s' : State} (h : compactRoom newCap s = .ready s') :
    compact newCap s = .ok s' := by
  unfold compactRoom at h
  split at h
  · next t ht => cases h; exact ht
  · cases h

/-- An iteration of the room loop that goes on has compacted, to CAP or to an admitted 2 * CAP. -/
theorem roomStep_ready {len : Nat} {s s' : State} (h : roomStep len s = .ready s') :
    ∃ newCap, compact newCap s = .ok s' ∧
      (newCap = s.cap ∧ need len ≤ s.cap - live s ∨
        newCap = 2 * s.cap ∧ growWanted len s = true ∧ admits s.params (2 * s.cap) = true) := by
  unfold roomStep at h
  split_ifs at h with h1 h2
  · simp only [Bool.and_eq_true] at h1
    exact ⟨_, compactRoom_ready h, .inr ⟨rfl, h1⟩⟩
  · exact ⟨_, compactRoom_ready h, .inl ⟨rfl, h2⟩⟩

/-- An iteration raises FATAL exactly as 40_ring_write.md R86 (b) has it. -/
theorem roomStep_overCap (len : Nat) (s : State) (h : roomStep len s = .overCap) :
    s.cap - live s < need len ∧ admits s.params (2 * s.cap) = false := by
  unfold roomStep at h
  split_ifs at h with h1 h2
  · unfold compactRoom at h
    split at h <;> cases h
  · unfold compactRoom at h
    split at h <;> cases h
  · refine ⟨by omega, ?_⟩
    have hg : growWanted len s = true := by
      unfold growWanted
      rw [Bool.or_eq_true]
      exact .inr (decide_eq_true (by omega))
    simpa [hg, Config.growthFactor] using h1

/-- What the room loop leaves: the packet fits, and only CAP, STORE, its draw, RD and WR can differ
(40_ring_write.md R81, R87). -/
theorem roomLoop_ready {len fuel : Nat} {s s' : State} (h : roomLoop len fuel s = .ready s') :
    fits len s' = true ∧
      ∃ c m f r w, s' = { s with cap := c, store := m, fills := f, rd := r, wr := w } := by
  induction fuel generalizing s with
  | zero =>
    unfold roomLoop at h
    split_ifs at h with hf
    cases h
    exact ⟨hf, _, _, _, _, _, rfl⟩
  | succ fuel ih =>
    unfold roomLoop at h
    split_ifs at h with hf
    · cases h
      exact ⟨hf, _, _, _, _, _, rfl⟩
    · split at h
      · next t ht =>
        obtain ⟨newCap, hc, -⟩ := roomStep_ready ht
        obtain ⟨v, -, -, rfl⟩ := (compact_eq_ok ..).mp hc
        obtain ⟨h1, c, m, f, r, w, rfl⟩ := ih h
        exact ⟨h1, c, m, f, r, w, rfl⟩
      · cases h
      · cases h

/-- A packet that already fits needs no iteration (40_ring_write.md R85). -/
theorem makeRoom_of_fits (len : Nat) (s : State) (h : fits len s = true) : makeRoom len s = .ready s := by
  unfold makeRoom roomFuel roomLoop
  rw [if_pos h]

/-- Head placement, written out (40_ring_write.md R79, R80, R90). -/
theorem placePacket_head (len skip : Word) (data : List Byte) (s : State)
    (hlen : data.length = len.toNat) (hh : headFit len.toNat s = true)
    (hcap : s.wr + 8 + len.toNat ≤ s.cap) :
    placePacket len skip data s = .ok { s with
      store := (s.store.setBytes s.wr (subHeader len skip)).setBytes (s.wr + 8) data
      wr := s.wr + 8 + len.toNat
      cnt := s.cnt + 1 } := by
  unfold placePacket putSubHeader putAtHead
  rw [memWrite_ok s.wr _ s (by simp; omega)]
  simp only [hh, if_true]
  rw [memWrite_ok _ data _ (by simp only [hlen]; exact hcap)]
  simp only [hlen]

/-- Start-region placement, written out (40_ring_write.md R79, R89, R90). -/
theorem placePacket_start (len skip : Word) (data : List Byte) (s : State)
    (hlen : data.length = len.toNat) (hh : headFit len.toNat s = false)
    (hsub : s.wr + 8 ≤ s.cap) (hcap : len.toNat ≤ s.cap) :
    placePacket len skip data s = .ok { s with
      store := (s.store.setBytes s.wr (subHeader len skip)).setBytes 0 data
      tb := s.wr + 8
      wr := len.toNat
      cnt := s.cnt + 1 } := by
  unfold placePacket putSubHeader putAtStart
  rw [memWrite_ok s.wr _ s (by simpa using hsub)]
  simp only [hh, Bool.false_eq_true, if_false]
  rw [memWrite_ok _ data _ (by simp only [hlen]; omega)]
  simp only [hlen]

/-- What a placed packet can have changed: STORE, WR, TB and CNT. -/
theorem placePacket_frame {len skip : Word} {data : List Byte} {s s' : State}
    (h : placePacket len skip data s = .ok s') :
    ∃ m w t, s' = { s with store := m, wr := w, tb := t, cnt := s.cnt + 1 } := by
  unfold placePacket putSubHeader putAtHead putAtStart at h
  split at h
  · next s1 h1 =>
    split at h1
    · next m1 hm1 =>
      cases h1
      obtain ⟨-, rfl⟩ := (memWrite_eq_ok ..).mp hm1
      split at h
      · next s2 h2 =>
        cases h
        split_ifs at h2 with hf <;> split at h2
        · next m2 hm2 =>
          cases h2
          obtain ⟨-, rfl⟩ := (memWrite_eq_ok ..).mp hm2
          exact ⟨_, _, _, rfl⟩
        · cases h2
        · next m2 hm2 =>
          cases h2
          obtain ⟨-, rfl⟩ := (memWrite_eq_ok ..).mp hm2
          exact ⟨_, _, _, rfl⟩
        · cases h2
      · cases h
    · cases h1
  · cases h

/-- `x` comes to a next state only through its value. -/
theorem andThen_next {α : Type} {x : Except Fault α} {f : α → Result} {t : State}
    (h : andThen x f = .next t) : ∃ a, x = .ok a ∧ f a = .next t := by
  unfold andThen at h
  split at h
  · next a => exact ⟨a, rfl, h⟩
  · cases h

theorem andThen_ok {α : Type} {x : Except Fault α} {f : α → Result} {a : α} (h : x = .ok a) :
    andThen x f = f a := by
  rw [h]
  rfl

/-- Everything a WRITE that goes on can have done (40_ring_write.md R77, R78). -/
theorem execWrite_cases {len skip : Word} {data : List Byte} {s t : State}
    (h : execWrite len skip data s = .next t) :
    (data.length ≠ len.toNat ∧ t = raiseErr .illegal .P s) ∨
    (data.length = len.toNat ∧ inFatal s = true ∧ t = respondErr .P .errFatal s) ∨
    (data.length = len.toNat ∧ inFatal s = false ∧ len.toNat < skip.toNat ∧ t = raiseErr .badSkip .P s) ∨
    (data.length = len.toNat ∧ inFatal s = false ∧ skip.toNat ≤ len.toNat ∧
      makeRoom len.toNat s = .overCap ∧ t = raiseErr .fatal .P s) ∨
    (data.length = len.toNat ∧ inFatal s = false ∧ skip.toNat ≤ len.toNat ∧
      ∃ s1 s2, makeRoom len.toNat s = .ready s1 ∧ placePacket len skip data s1 = .ok s2 ∧
        t = respondOk .P [] [] s2) := by
  unfold execWrite at h
  split_ifs at h with h1 h2 h3
  · have h1 : data.length = len.toNat := by simpa [Instr.wellFormed] using h1
    cases h
    exact .inr (.inl ⟨h1, h2, rfl⟩)
  · have h1 : data.length = len.toNat := by simpa [Instr.wellFormed] using h1
    cases h
    exact .inr (.inr (.inl ⟨h1, by simpa using h2, h3, rfl⟩))
  · have h1 : data.length = len.toNat := by simpa [Instr.wellFormed] using h1
    have h2 : inFatal s = false := by simpa using h2
    split at h
    · next s1 hs1 =>
      obtain ⟨s2, hs2, h⟩ := andThen_next h
      cases h
      exact .inr (.inr (.inr (.inr ⟨h1, h2, by omega, s1, s2, hs1, hs2, rfl⟩)))
    · next hs1 =>
      cases h
      exact .inr (.inr (.inr (.inl ⟨h1, h2, by omega, hs1, rfl⟩)))
    · cases h
  · cases h
    exact .inl ⟨by simpa [Instr.wellFormed] using h1, rfl⟩

/-- Everything a READ that goes on can have done (41_ring_read.md R95). -/
theorem execRead_cases {s t : State} (h : execRead s = .next t) :
    (inFatal s = true ∧ t = respondErr .C .errFatal s) ∨
    (inFatal s = false ∧ s.cnt = 0 ∧ t = raiseErr .emptyRead .C s) ∨
    (inFatal s = false ∧ 0 < s.cnt ∧ ∃ len skip view, readSubHeader s.rd s = .ok (len, skip) ∧
      skip.toNat ≤ len.toNat ∧
      memRead (payloadStart s.rd len.toNat s + skip.toNat) (len.toNat - skip.toNat) s = .ok view ∧
      t = respondOk .C [len - skip] view
        { s with rd := payloadStart s.rd len.toNat s + len.toNat, cnt := s.cnt - 1 }) := by
  unfold execRead at h
  split_ifs at h with h1 h2
  · cases h
    exact .inl ⟨h1, rfl⟩
  · cases h
    exact .inr (.inl ⟨by simpa using h1, by simpa [empty] using h2, rfl⟩)
  · obtain ⟨⟨len, skip⟩, hsub, h⟩ := andThen_next h
    simp only at h
    split_ifs at h with h3
    obtain ⟨view, hview, h⟩ := andThen_next h
    cases h
    exact .inr (.inr ⟨by simpa using h1, by simp [empty] at h2; omega, len, skip, view, hsub, by omega,
      hview, rfl⟩)

/-- Everything a QUERY does (42_ring_control.md R102). -/
theorem execQuery_cases {port : Port} {s t : State} (h : execQuery port s = .next t) :
    (port ≠ .H ∧ t = respondOk port [cntWord s.cnt, s.err] [] s) ∨
    (port = .H ∧ t = raiseErr .illegal .H s) := by
  cases port <;> cases h
  · exact .inl ⟨by decide, rfl⟩
  · exact .inl ⟨by decide, rfl⟩
  · exact .inl ⟨by decide, rfl⟩
  · exact .inr ⟨rfl, rfl⟩

/-- Everything a CLEAR does (42_ring_control.md R105). -/
theorem execClear_cases {s t : State} (h : execClear s = .next t) :
    (inFatal s = true ∧ t = respondErr .K .errFatal s) ∨
    (inFatal s = false ∧
      t = respondOk .K [] [] { s with cnt := 0, rd := 0, wr := 0, err := errClear s.err }) := by
  unfold execClear at h
  split_ifs at h with h1
  · cases h
    exact .inl ⟨h1, rfl⟩
  · cases h
    exact .inr ⟨by simpa using h1, rfl⟩

/-- Everything a DECODE does (43_header_decode.md R110). -/
theorem execDecode_cases {size : Word} {win : List Byte} {s t : State}
    (h : execDecode size win s = .next t) :
    (win.length = 16 ∧ t = respondOk .H (hdrWords (validate size win s)) [] (validate size win s)) ∨
    (win.length ≠ 16 ∧ t = raiseErr .illegal .H s) := by
  unfold execDecode at h
  split_ifs at h with h1
  · cases h
    exact .inl ⟨by simpa [Instr.wellFormed] using h1, rfl⟩
  · cases h
    exact .inr ⟨by simpa [Instr.wellFormed] using h1, rfl⟩

end Sys2Proof.Machine
end

