-- ==== Sys2Proof/Laws/Step.lean ====
section
/-! SUPPORT. What one step of the machine can do: one lemma, from which every claim about a step
starts. -/

namespace Sys2Proof.Machine

/-- Performing a port's command: an illegal one raises ILLEGAL, any other runs as the command the decoder
names (30_encoding.md R70). -/
theorem perform_eq (port : Port) (r : Request) (s : State) :
    perform port r s =
      match decode port r with
      | .ok i => exec i { s with pend := s.pend.set port none }
      | .error _ => .next (raiseErr .illegal port { s with pend := s.pend.set port none }) := rfl

theorem perform_of_decode {port : Port} {r : Request} {i : Instr} (s : State) (h : decode port r = .ok i) :
    perform port r s = exec i { s with pend := s.pend.set port none } := by
  rw [perform_eq, h]

theorem perform_of_illegal {port : Port} {r : Request} {e : DecodeError} (s : State)
    (h : decode port r = .error e) :
    perform port r s = .next (raiseErr .illegal port { s with pend := s.pend.set port none }) := by
  rw [perform_eq, h]

/-- A port is pending exactly when its slot holds a command. -/
theorem mem_pendingPorts (s : State) (port : Port) :
    port ∈ pendingPorts s ↔ ∃ r, s.pend.get port = some r := by
  unfold pendingPorts
  rw [List.mem_filter, Option.isSome_iff_exists]
  cases port <;> simp

/-- Everything a step can be: hard reset; an issue that becomes pending, or one that waits while its
port's command is performed; a named port performed, or found with nothing pending; with no input left,
a pending port performed, or nothing because the run is over. -/
theorem step_cases (s : State) :
    (∃ rest, s.inputs = .hardReset :: rest ∧ step s = .next (hardReset { s with inputs := rest })) ∨
    (∃ port r rest, s.inputs = .issue port r :: rest ∧ s.pend.get port = none ∧
      step s = .next { s with inputs := rest, pend := s.pend.set port (some r) }) ∨
    (∃ port r rest q, s.inputs = .issue port r :: rest ∧ s.pend.get port = some q ∧
      step s = perform port q s) ∨
    (∃ port rest, s.inputs = .take port :: rest ∧ s.pend.get port = none ∧
      step s = .next { s with inputs := rest }) ∨
    (∃ port rest q, s.inputs = .take port :: rest ∧ s.pend.get port = some q ∧
      step s = perform port q { s with inputs := rest }) ∨
    (s.inputs = [] ∧ pendingPorts s = [] ∧ step s = .next s) ∨
    (s.inputs = [] ∧ ∃ port q d, s.pend.get port = some q ∧
      step s = perform port q { s with draws := d }) := by
  unfold step stepOnce
  split
  · next rest hin => exact .inl ⟨rest, hin, rfl⟩
  · next port r rest hin =>
    cases hp : s.pend.get port with
    | none =>
      refine .inr (.inl ⟨port, r, rest, hin, hp, ?_⟩)
      simp only [offer, hp]
    | some q =>
      refine .inr (.inr (.inl ⟨port, r, rest, q, hin, hp, ?_⟩))
      simp only [offer, hp]
  · next port rest hin =>
    cases hp : s.pend.get port with
    | none =>
      refine .inr (.inr (.inr (.inl ⟨port, rest, hin, hp, ?_⟩)))
      simp only [performPending, hp]
    | some q =>
      refine .inr (.inr (.inr (.inr (.inl ⟨port, rest, q, hin, hp, ?_⟩))))
      simp only [performPending, hp]
  · next hin =>
    unfold arbitrate
    split
    · next hp => exact .inr (.inr (.inr (.inr (.inr (.inl ⟨hin, hp, rfl⟩)))))
    · next port hp =>
      obtain ⟨q, hq⟩ := (mem_pendingPorts s port).mp (by rw [hp]; simp)
      refine .inr (.inr (.inr (.inr (.inr (.inr ⟨hin, port, q, s.draws, hq, ?_⟩)))))
      simp only [performPending, hq]
    · next port others _ hp =>
      have hlt : Config.arbiterPick s.draws % (others.length + 1) < (port :: others).length := by
        simpa using Nat.mod_lt _ (Nat.succ_pos _)
      have hmem : (port :: others).getD (Config.arbiterPick s.draws % (others.length + 1)) port ∈
          pendingPorts s := by
        rw [hp, List.getD_eq_getElem _ _ hlt]
        exact List.getElem_mem hlt
      obtain ⟨q, hq⟩ := (mem_pendingPorts s _).mp hmem
      refine .inr (.inr (.inr (.inr (.inr (.inr ⟨hin, _, q, s.draws + 1, hq, ?_⟩)))))
      simp only [performPending, hq]

end Sys2Proof.Machine
end

