-- ==== Sys2Proof/Laws/Layout.lean ====
section
/-! SUPPORT. The packet layout of 10_state.md R35 as bytes. `Ring s ps` says that the live regions of STORE
hold the packets `ps` one after another, each as its sub-header and payload. It is what `Layout` comes
to (`Layout.ring`, `Ring.layout`), and the form every command is easy to follow in. -/

namespace Sys2Proof.Machine

/-- A packet a WRITE can store: as many bytes as its length, and skip <= len (30_encoding.md R59,
40_ring_write.md R82). -/
structure Packet.Stored (p : Packet) : Prop where
  length : p.data.length = p.len.toNat
  skip_le : p.skip.toNat ≤ p.len.toNat

/-- A packet's bytes in STORE: sub-header, then payload (20_memory.md R42, R44). -/
def Packet.bytes (p : Packet) : List Byte := subHeader p.len p.skip ++ p.data

/-- The bytes of a run of packets. -/
def flat (ps : List Packet) : List Byte := ps.flatMap Packet.bytes

@[simp] theorem flat_nil : flat [] = [] := rfl

@[simp] theorem flat_cons (p : Packet) (ps : List Packet) : flat (p :: ps) = p.bytes ++ flat ps := rfl

@[simp] theorem flat_append (ps qs : List Packet) : flat (ps ++ qs) = flat ps ++ flat qs := by
  simp [flat]

theorem Packet.length_bytes (p : Packet) : p.bytes.length = 8 + p.data.length := by
  simp [Packet.bytes]

/-- Every packet takes at least its 8-byte sub-header (10_state.md R36). -/
theorem length_flat_ge (ps : List Packet) : 8 * ps.length ≤ (flat ps).length := by
  induction ps with
  | nil => simp
  | cons p ps ih => simp only [flat_cons, List.length_append, List.length_cons, p.length_bytes]; omega

/-- Rules wrote the bytes `v` from offset `h` on, all inside the store. -/
def Holds (s : State) (h : Nat) (v : List Byte) : Prop :=
  h + v.length ≤ s.cap ∧ ∀ j < v.length, s.store.get (h + j) = v[j]?

theorem Holds.memGiven {s : State} {h : Nat} {v : List Byte} (hv : Holds s h v) {n : Nat}
    (hn : n = v.length) : memGiven h n s = some v := by
  subst hn
  exact (memGiven_eq_some ..).mpr ⟨hv.1, rfl, hv.2⟩

theorem Holds.memRead {s : State} {h : Nat} {v : List Byte} (hv : Holds s h v) {n : Nat}
    (hn : n = v.length) : memRead h n s = .ok v := memRead_of_given (hv.memGiven hn)

theorem holds_of_memGiven {s : State} {h n : Nat} {v : List Byte} (hv : Machine.memGiven h n s = some v) :
    Holds s h v := by
  obtain ⟨h1, h2, h3⟩ := (memGiven_eq_some ..).mp hv
  subst h2
  exact ⟨h1, h3⟩

theorem holds_append (s : State) (h : Nat) (u v : List Byte) :
    Holds s h (u ++ v) ↔ Holds s h u ∧ Holds s (h + u.length) v := by
  unfold Holds
  rw [List.length_append]
  constructor
  · rintro ⟨h1, h2⟩
    refine ⟨⟨by omega, fun j hj => ?_⟩, ⟨by omega, fun j hj => ?_⟩⟩
    · rw [h2 j (by omega), List.getElem?_append_left hj]
    · rw [Nat.add_assoc, h2 (u.length + j) (by omega), List.getElem?_append_right (by omega),
        Nat.add_sub_cancel_left]
  · rintro ⟨⟨h1, h2⟩, ⟨h3, h4⟩⟩
    refine ⟨by omega, fun j hj => ?_⟩
    by_cases hju : j < u.length
    · rw [h2 j hju, List.getElem?_append_left hju]
    · rw [List.getElem?_append_right (by omega), ← h4 (j - u.length) (by omega)]
      congr 1
      omega

/-- `Holds` reads only CAP and the bytes it names. -/
theorem Holds.congr {s s' : State} {h : Nat} {v : List Byte} (hv : Holds s h v) (hcap : s.cap ≤ s'.cap)
    (hget : ∀ j, h ≤ j → j < h + v.length → s'.store.get j = s.store.get j) : Holds s' h v :=
  ⟨by have := hv.1; omega, fun j hj => by rw [hget _ (by omega) (by omega), hv.2 j hj]⟩

/-- The sub-header a store holds is the one `slotAt` finds. -/
theorem slotAt_of_holds {s : State} {h : Nat} {len skip : Word} (hv : Holds s h (subHeader len skip)) :
    slotAt h s = some ⟨h, len, skip, payloadStart h len.toNat s⟩ := by
  refine (slotAt_eq_some ..).mpr ⟨rfl, rfl, ?_, ?_⟩
  · simpa using hv.1
  · simpa using hv.2

theorem holds_of_slotAt {s : State} {h : Nat} {x : Slot} (hx : slotAt h s = some x) :
    Holds s h (subHeader x.len x.skip) := by
  obtain ⟨-, -, h1, h2⟩ := (slotAt_eq_some ..).mp hx
  exact ⟨by simpa using h1, by simpa using h2⟩

/-- What the layout asks of each slot (10_state.md R35). -/
def SlotOk (s : State) (x : Slot) : Prop :=
  x.skip.toNat ≤ x.len.toNat ∧ (x.packet s).isSome = true

/-- A slot whose payload the store holds gives that packet. -/
theorem packet_of_holds {s : State} {x : Slot} {data : List Byte} (hv : Holds s x.pay data)
    (hl : data.length = x.len.toNat) : x.packet s = some ⟨x.len, x.skip, data⟩ := by
  unfold Slot.packet
  rw [hv.memGiven hl.symm]

theorem holds_of_packet {s : State} {x : Slot} {p : Packet} (hp : x.packet s = some p) :
    p.len = x.len ∧ p.skip = x.skip ∧ p.data.length = x.len.toNat ∧ Holds s x.pay p.data := by
  unfold Slot.packet at hp
  split at hp
  · next d hd =>
    cases hp
    exact ⟨rfl, rfl, ((memGiven_eq_some ..).mp hd).2.1, holds_of_memGiven hd⟩
  · cases hp

/-- A run of packets in the store is found by the sub-header walk, with no jump. -/
theorem run_of_holds (s : State) (ps : List Packet) (h : Nat) (hps : ∀ p ∈ ps, p.Stored)
    (hv : Holds s h (flat ps)) :
    ∃ xs, slotsFrom ps.length h s = some (xs, h + (flat ps).length) ∧ packetsOf xs s = some ps ∧
      ∀ x ∈ xs, x.jumps = false ∧ SlotOk s x := by
  induction ps generalizing h with
  | nil => exact ⟨[], rfl, rfl, by simp⟩
  | cons p ps ih =>
    have hp := hps p (by simp)
    rw [flat_cons, holds_append] at hv
    obtain ⟨hb, hrest⟩ := hv
    have hb' := hb
    rw [Packet.bytes, holds_append] at hb'
    obtain ⟨hsub, hdata⟩ := hb'
    rw [length_subHeader] at hdata
    have hin : payloadStart h p.len.toNat s = h + 8 := by
      have := hdata.1
      rw [hp.length] at this
      unfold payloadStart
      rw [if_neg (by simp only [Config.subHdrSize]; omega)]
    have hx := slotAt_of_holds hsub
    rw [hin] at hx
    obtain ⟨xs, h1, h2, h3⟩ := ih (h + p.bytes.length) (fun q hq => hps q (by simp [hq])) hrest
    have hstop : Slot.stop ⟨h, p.len, p.skip, h + 8⟩ = h + p.bytes.length := by
      simp only [Slot.stop, p.length_bytes, hp.length]
      omega
    have hpk : Slot.packet ⟨h, p.len, p.skip, h + 8⟩ s = some p := packet_of_holds hdata hp.length
    refine ⟨⟨h, p.len, p.skip, h + 8⟩ :: xs, ?_, ?_, ?_⟩
    · refine (slotsFrom_succ ..).mpr ⟨_, xs, hx, ?_, rfl⟩
      rw [hstop, h1, flat_cons, List.length_append, Nat.add_assoc]
    · simp only [packetsOf, hpk, h2]
    · intro x hx
      rcases List.mem_cons.mp hx with rfl | hx
      · exact ⟨by simp [Slot.jumps], hp.skip_le, by rw [hpk]; rfl⟩
      · exact h3 x hx

/-- A walk with no jump is a run of packets in the store. -/
theorem holds_of_run (s : State) (n h : Nat) (xs : List Slot) (last : Nat) (hh : h ≤ s.cap)
    (hx : slotsFrom n h s = some (xs, last)) (hok : ∀ x ∈ xs, x.jumps = false ∧ SlotOk s x) :
    ∃ ps, ps.length = n ∧ packetsOf xs s = some ps ∧ (∀ p ∈ ps, p.Stored) ∧ Holds s h (flat ps) ∧
      last = h + (flat ps).length := by
  induction n generalizing h xs with
  | zero =>
    simp only [slotsFrom, Option.some.injEq, Prod.mk.injEq] at hx
    obtain ⟨rfl, rfl⟩ := hx
    exact ⟨[], rfl, rfl, by simp, ⟨by simpa using hh, by simp⟩, by simp⟩
  | succ n ih =>
    obtain ⟨x, rest, h1, h2, rfl⟩ := (slotsFrom_succ ..).mp hx
    obtain ⟨hj, hskip, hsome⟩ := hok x (by simp)
    obtain ⟨p, hp⟩ := Option.isSome_iff_exists.mp hsome
    obtain ⟨hl, hk, hdl, hdata⟩ := holds_of_packet hp
    have hsub := holds_of_slotAt h1
    obtain ⟨-, hpay, -, -⟩ := (slotAt_eq_some ..).mp h1
    have hpay8 : x.pay = h + 8 := by
      unfold payloadStart at hpay
      split_ifs at hpay with hc
      · simp [Slot.jumps, hpay] at hj
      · exact hpay
    have hbytes : Holds s h p.bytes := by
      rw [Packet.bytes, holds_append, length_subHeader, hl, hk, ← hpay8]
      exact ⟨hsub, hdata⟩
    have hstop : x.stop = h + p.bytes.length := by
      simp only [Slot.stop, p.length_bytes, hdl]
      omega
    rw [hstop] at h2
    obtain ⟨ps, k1, k2, k3, k4, k5⟩ :=
      ih (h + p.bytes.length) rest hbytes.1 h2 fun y hy => hok y (by simp [hy])
    refine ⟨p :: ps, by simp [k1], by simp only [packetsOf, hp, k2], ?_, ?_, ?_⟩
    · intro q hq
      rcases List.mem_cons.mp hq with rfl | hq
      · exact ⟨by rw [hdl, hl], by rw [hl, hk]; exact hskip⟩
      · exact k3 q hq
    · rw [flat_cons, holds_append]
      exact ⟨hbytes, k4⟩
    · rw [k5, flat_cons, List.length_append, Nat.add_assoc]

/-- A walk splits wherever its list of slots does. -/
theorem slotsFrom_split (s : State) (xs ys : List Slot) (n h last : Nat)
    (hx : slotsFrom n h s = some (xs ++ ys, last)) :
    ∃ mid, slotsFrom xs.length h s = some (xs, mid) ∧ slotsFrom ys.length mid s = some (ys, last) := by
  induction xs generalizing n h with
  | nil =>
    have hn := slotsFrom_length hx
    rw [List.nil_append] at hn hx
    rw [hn]
    exact ⟨h, rfl, hx⟩
  | cons x xs ih =>
    cases n with
    | zero => simp [slotsFrom] at hx
    | succ n =>
      obtain ⟨y, rest, h1, h2, h3⟩ := (slotsFrom_succ ..).mp hx
      simp only [List.cons_append, List.cons.injEq] at h3
      obtain ⟨rfl, rfl⟩ := h3
      obtain ⟨mid, k1, k2⟩ := ih _ _ h2
      exact ⟨mid, (slotsFrom_succ ..).mpr ⟨x, xs, h1, k1, rfl⟩, k2⟩

/-- The ring holds exactly the packets `ps`, oldest first (10_state.md R35, R38): in [RD, WR), or, when
wrapped, in [RD, TB) up to the sub-header of the one packet whose payload starts at offset 0, and in
[0, WR). -/
inductive Ring (s : State) (ps : List Packet) : Prop where
  | straight (hw : wrapped s = false) (hcnt : s.cnt = ps.length) (hps : ∀ p ∈ ps, p.Stored)
      (hold : Holds s s.rd (flat ps)) (hwr : s.wr = s.rd + (flat ps).length)
  | around (pre : List Packet) (k : Packet) (post : List Packet) (hsplit : ps = pre ++ k :: post)
      (hw : wrapped s = true) (hcnt : s.cnt = ps.length) (hps : ∀ p ∈ ps, p.Stored)
      (tail : Holds s s.rd (flat pre ++ subHeader k.len k.skip))
      (htb : s.tb = s.rd + (flat pre).length + 8) (hjump : s.cap < s.tb + k.len.toNat)
      (head : Holds s 0 (k.data ++ flat post)) (hwr : s.wr = k.data.length + (flat post).length)

theorem Ring.cnt_eq {s : State} {ps : List Packet} (h : Ring s ps) : s.cnt = ps.length := by
  cases h <;> assumption

theorem Ring.stored {s : State} {ps : List Packet} (h : Ring s ps) : ∀ p ∈ ps, p.Stored := by
  cases h <;> assumption

/-- The layout of 10_state.md R35 is a ring of packets, and they are `pkts` (R38). -/
theorem Layout.ring {s : State} (h : Layout s) (hrd : s.rd ≤ s.cap) :
    ∃ ps, Ring s ps ∧ pkts s = some ps := by
  obtain ⟨xs, hx, hok, hj⟩ := h
  have hlen := slotsFrom_length hx
  have hpk : ∀ ps, packetsOf xs s = some ps → pkts s = some ps := fun ps hps => by
    rw [pkts, hx]
    exact hps
  cases hw : wrapped s with
  | false =>
    rw [hw] at hj
    simp only [Bool.false_eq_true, if_false, List.map_eq_nil_iff, List.filter_eq_nil_iff] at hj
    obtain ⟨ps, h1, h2, h3, h4, h5⟩ := holds_of_run s _ _ xs s.wr hrd hx
      fun x hx => ⟨by simpa using hj x hx, hok x hx⟩
    exact ⟨ps, .straight hw h1.symm h3 h4 h5, hpk ps h2⟩
  | true =>
    rw [hw] at hj
    simp only [if_true, List.map_eq_singleton_iff] at hj
    obtain ⟨k, hk, htb⟩ := hj
    obtain ⟨pre, post, rfl, hpre, hkj, hpost⟩ := List.filter_eq_cons_iff.mp hk
    rw [List.filter_eq_nil_iff] at hpost
    obtain ⟨mid, k1, k2⟩ := slotsFrom_split s pre (k :: post) _ _ _ hx
    obtain ⟨y, rest, k3, k4, k5⟩ := (slotsFrom_succ ..).mp (by simpa using k2)
    simp only [List.cons.injEq] at k5
    obtain ⟨rfl, rfl⟩ := k5
    obtain ⟨ps1, a1, a2, a3, a4, a5⟩ := holds_of_run s _ _ pre mid hrd k1
      fun x hx => ⟨by simpa using hpre x hx, hok x (by simp [hx])⟩
    obtain ⟨hskip, hsome⟩ := hok k (by simp)
    obtain ⟨p, hp⟩ := Option.isSome_iff_exists.mp hsome
    obtain ⟨hl, hks, hdl, hdata⟩ := holds_of_packet hp
    obtain ⟨hoff, hpay, hin, -⟩ := (slotAt_eq_some ..).mp k3
    have hpay0 : k.pay = 0 := by simpa [Slot.jumps] using hkj
    have hcap : s.cap < mid + 8 + k.len.toNat := by
      unfold payloadStart at hpay
      split_ifs at hpay with hc
      · exact hc
      · simp only [Config.subHdrSize] at hpay
        omega
    rw [hpay0] at hdata
    have hstop : k.stop = p.data.length := by simp [Slot.stop, hpay0, hdl]
    rw [hstop] at k4
    have hdcap : p.data.length ≤ s.cap := by simpa using hdata.1
    obtain ⟨ps2, b1, b2, b3, b4, b5⟩ := holds_of_run s _ _ post s.wr hdcap k4
      fun x hx => ⟨by simpa using hpost x hx, hok x (by simp [hx])⟩
    refine ⟨ps1 ++ p :: ps2, .around ps1 p ps2 rfl hw ?_ ?_ ?_ ?_ ?_ ?_ ?_, hpk _ ?_⟩
    · rw [← hlen]
      simp [a1, b1]
    · intro q hq
      rcases List.mem_append.mp hq with hq | hq
      · exact a3 q hq
      · rcases List.mem_cons.mp hq with rfl | hq
        · exact ⟨by rw [hdl, hl], by rw [hl, hks]; exact hskip⟩
        · exact b3 q hq
    · rw [holds_append, ← a5, hl, hks]
      exact ⟨a4, holds_of_slotAt k3⟩
    · rw [← htb, hoff, a5]
    · rw [← htb, hoff, hl]
      simpa using hcap
    · rw [holds_append]
      exact ⟨hdata, by simpa using b4⟩
    · exact b5
    · rw [packetsOf_append, a2]
      simp only [packetsOf, hp, b2]

/-- A ring of packets has the layout of 10_state.md R35, and they are its `pkts` (R38). -/
theorem Ring.layout {s : State} {ps : List Packet} (h : Ring s ps) : Layout s ∧ pkts s = some ps := by
  cases h with
  | straight hw hcnt hps hold hwr =>
    obtain ⟨xs, h1, h2, h3⟩ := run_of_holds s ps s.rd hps hold
    rw [← hwr, ← hcnt] at h1
    refine ⟨⟨xs, h1, fun x hx => (h3 x hx).2, ?_⟩, by rw [pkts, h1]; exact h2⟩
    rw [hw]
    simp only [Bool.false_eq_true, if_false, List.map_eq_nil_iff, List.filter_eq_nil_iff]
    exact fun x hx => by simp [(h3 x hx).1]
  | around pre k post hsplit hw hcnt hps tail htb hjump head hwr =>
    subst hsplit
    rw [holds_append] at tail head
    have hk := hps k (by simp)
    obtain ⟨xs, a1, a2, a3⟩ := run_of_holds s pre s.rd (fun p hp => hps p (by simp [hp])) tail.1
    obtain ⟨ys, b1, b2, b3⟩ := run_of_holds s post _ (fun p hp => hps p (by simp [hp])) head.2
    have hslot := slotAt_of_holds tail.2
    have hstart : payloadStart (s.rd + (flat pre).length) k.len.toNat s = 0 := by
      unfold payloadStart
      rw [if_pos (by simp only [Config.subHdrSize]; omega)]
    rw [hstart] at hslot
    have hpk : Slot.packet ⟨s.rd + (flat pre).length, k.len, k.skip, 0⟩ s = some k :=
      packet_of_holds head.1 hk.length
    have hwalk : slotsFrom (post.length + 1) (s.rd + (flat pre).length) s =
        some (⟨s.rd + (flat pre).length, k.len, k.skip, 0⟩ :: ys, s.wr) := by
      refine (slotsFrom_succ ..).mpr ⟨_, ys, hslot, ?_, rfl⟩
      rw [Slot.stop, ← hk.length, b1, hwr, Nat.zero_add]
    have hall := slotsFrom_add _ _ _ _ _ _ _ _ a1 hwalk
    have hn : pre.length + (post.length + 1) = s.cnt := by rw [hcnt]; simp
    rw [hn] at hall
    have hxj : xs.filter Slot.jumps = [] :=
      List.filter_eq_nil_iff.mpr fun x hx => by simp [(a3 x hx).1]
    have hyj : ys.filter Slot.jumps = [] :=
      List.filter_eq_nil_iff.mpr fun x hx => by simp [(b3 x hx).1]
    refine ⟨⟨_, hall, ?_, ?_⟩, ?_⟩
    · intro x hx
      rcases List.mem_append.mp hx with hx | hx
      · exact (a3 x hx).2
      · rcases List.mem_cons.mp hx with rfl | hx
        · exact ⟨hk.skip_le, by rw [hpk]; rfl⟩
        · exact (b3 x hx).2
    · rw [hw, List.filter_append, hxj, List.filter_cons, hyj]
      simp [Slot.jumps, htb]
    · rw [pkts, hall]
      simp only [packetsOf_append, a2, packetsOf, hpk, b2]

/-- The live bytes are the packets' bytes in order (40_ring_write.md R87, R88). -/
theorem Ring.liveBytes {s : State} {ps : List Packet} (h : Ring s ps) :
    liveBytes s = .ok (flat ps) ∧ live s = (flat ps).length := by
  have key : Machine.liveBytes s = .ok (flat ps) := by
    unfold Machine.liveBytes
    cases h with
    | straight hw hcnt hps hold hwr =>
      rw [hw]
      simp only [Bool.false_eq_true, if_false]
      exact hold.memRead (by omega)
    | around pre k post hsplit hw hcnt hps tail htb hjump head hwr =>
      rw [hw]
      simp only [if_true]
      rw [tail.memRead (by simp; omega)]
      simp only
      rw [head.memRead (by simp; omega)]
      simp [hsplit, Packet.bytes]
  exact ⟨key, (liveBytes_length key).symm⟩

/-- Compaction keeps the packets, unwrapped at the front of the new store (40_ring_write.md R87, R88). -/
theorem Ring.compact {s : State} {ps : List Packet} (h : Ring s ps) (c : Nat) (hc : live s ≤ c) :
    ∃ t, t = { s with
        cap := c, store := Memory.ofBytes 0 (flat ps), fills := s.fills + 1, rd := 0, wr := live s } ∧
      compact c s = .ok t ∧ wrapped t = false ∧ Ring t ps := by
  obtain ⟨h1, h2⟩ := h.liveBytes
  have hge := length_flat_ge ps
  have hw : wrapped { s with
      cap := c
      store := Memory.ofBytes 0 (flat ps)
      fills := s.fills + 1
      rd := 0
      wr := live s } = false := by
    have := h.cnt_eq
    simp only [wrapped, Bool.and_eq_false_iff, decide_eq_false_iff_not]
    omega
  refine ⟨_, rfl, (compact_eq_ok ..).mpr ⟨_, h1, h2.symm, rfl⟩, hw, ?_⟩
  refine .straight hw h.cnt_eq h.stored ⟨by simp only [Nat.zero_add]; omega, fun j hj => ?_⟩ ?_
  · simp only [Nat.zero_add]
    rw [Memory.get_ofBytes, if_pos (by omega), Nat.sub_zero]
  · simp only [Nat.zero_add]
    exact h2

end Sys2Proof.Machine
end

