-- ==== Sys2Proof/Laws/PerInstr.lean ====
section
/-! SUPPORT. Families of statements made per instruction, one lemma per constructor of `Instr`. -/

namespace Sys2Proof.Laws.EncodedShape

/-- A well-formed command's transaction has the length a decoder tells from its OP and args[0]
(30_encoding.md R69). -/
def Statement (i : Instr) : Prop :=
  i.wellFormed = true →
    transactionShape (encode i).cw ((encode i).args.headD 0#32) =
      ((encode i).args.length, (encode i).data.length)

theorem write (len skip : Word) (data : List Byte) : Statement (.write len skip data) := by
  intro h
  have h : data.length = len.toNat := by simpa [Instr.wellFormed] using h
  simp [transactionShape, encode, opField, opOfCode, h]

theorem read : Statement .read := fun _ => rfl

theorem query (port : Port) : Statement (.query port) := fun _ => rfl

theorem clear : Statement .clear := fun _ => rfl

theorem decode (size : Word) (win : List Byte) : Statement (.decode size win) := by
  intro h
  have h : win.length = 16 := by simpa [Instr.wellFormed] using h
  simp [transactionShape, encode, opField, opOfCode, h]

end Sys2Proof.Laws.EncodedShape
end

