-- ==== Sys2Proof/Laws/Room.lean ====
section
/-! SUPPORT. The room loop from a compacted store (40_ring_write.md R85, R86): what it ends in, and with
which capacity. -/

namespace Sys2Proof.Machine

/-- The bound of the room loop is large enough: `x < 2 ^ (log2 x + 1)`. -/
theorem lt_two_pow_log2 (x : Nat) : x < 2 ^ (Nat.log2 x + 1) := by
  rcases Nat.eq_zero_or_pos x with rfl | hx
  · simp
  · exact (Nat.log2_lt (by omega)).mp (Nat.lt_succ_self _)

/-- A parameter pair that admits a capacity admits every smaller one (00_scope.md R8). -/
theorem admits_mono {params : Params} {a b : Nat} (hab : a ≤ b) (h : admits params b = true) :
    admits params a = true := by
  unfold admits at h ⊢
  split at h
  · rfl
  · simp only [decide_eq_true_eq] at h ⊢
    omega

/-- A store as compactions leave it, the draw numbered `f`: the packets at the front, RD = 0, unwrapped. -/
def Compacted (s : State) (ps : List Packet) (c f : Nat) : State :=
  { s with cap := c, store := Memory.ofBytes 0 (flat ps), fills := f, rd := 0, wr := (flat ps).length }

/-- A compaction leaves a compacted store, with the next draw (40_ring_write.md R87). -/
theorem Ring.compacted {s : State} {ps : List Packet} (h : Ring s ps) (c : Nat) (hc : live s ≤ c) :
    Machine.compact c s = .ok (Compacted s ps c (s.fills + 1)) ∧
      wrapped (Compacted s ps c (s.fills + 1)) = false ∧ Ring (Compacted s ps c (s.fills + 1)) ps := by
  obtain ⟨t, ht, h1, h2, h3⟩ := h.compact c hc
  rw [h.liveBytes.2] at ht
  subst ht
  exact ⟨h1, h2, h3⟩

/-- A ring does not depend on the draw: every byte of it was written. -/
theorem Ring.withFills {s : State} {ps : List Packet} (h : Ring s ps) (f : Nat) :
    Ring { s with fills := f } ps := by
  cases h with
  | straight hw hcnt hps hold hwr => exact .straight hw hcnt hps hold hwr
  | around pre k post hsplit hw hcnt hps tail htb hjump head hwr =>
    exact .around pre k post hsplit hw hcnt hps tail htb hjump head hwr


/-- After a compaction `fits(len)` holds exactly when c - live >= need(len) (40_ring_write.md R85). -/
theorem fits_compacted {s : State} {ps : List Packet} {c f len : Nat}
    (hw : wrapped (Compacted s ps c f) = false) :
    fits len (Compacted s ps c f) = true ↔ need len ≤ c - (flat ps).length := by
  simp only [fits, spaceAtHead, spaceAtStart, hw, Bool.false_eq_true, if_false, Bool.and_eq_true,
    Bool.or_eq_true, decide_eq_true_eq, need]
  show 8 < c - (flat ps).length ∧ (len + 8 ≤ c - (flat ps).length ∨ len + 8 ≤ 0) ↔ _
  omega

/-- The room loop from a compacted store with enough iterations left: it ends at the least admitted
doubling of CAP that holds the live bytes and need(len), one draw for each, or in FATAL when that passes
CAP_MAX (40_ring_write.md R85, R86). -/
theorem roomLoop_compacted (s : State) (ps : List Packet) (len c f fuel : Nat) (h : Ring s ps)
    (hc : live s ≤ c) (hpos : 1 ≤ c) (hfuel : live s + need len ≤ c * 2 ^ fuel) :
    (∃ k, roomLoop len fuel (Compacted s ps c f) = .ready (Compacted s ps (c * 2 ^ k) (f + k)) ∧
      live s + need len ≤ c * 2 ^ k ∧ (∀ j < k, c * 2 ^ j < live s + need len) ∧
      (k ≠ 0 → admits s.params (c * 2 ^ k) = true)) ∨
    (roomLoop len fuel (Compacted s ps c f) = .overCap ∧
      ∃ k, c * 2 ^ k < live s + need len ∧ admits s.params (c * 2 ^ (k + 1)) = false) := by
  induction fuel generalizing c f with
  | zero =>
    have hw : wrapped (Compacted s ps c f) = false := (h.compacted c hc).2.1
    have hl := h.liveBytes.2
    have hf : fits len (Compacted s ps c f) = true := (fits_compacted hw).mpr (by simp at hfuel; omega)
    refine .inl ⟨0, ?_, by simpa using hfuel, by simp, by simp⟩
    rw [roomLoop, if_pos hf, pow_zero, mul_one, Nat.add_zero]
  | succ fuel ih =>
    have hw : wrapped (Compacted s ps c f) = false := (h.compacted c hc).2.1
    have hring : Ring (Compacted s ps c f) ps := (h.compacted c hc).2.2.withFills f
    have hl := h.liveBytes.2
    have hl' : live (Compacted s ps c f) = (flat ps).length := hring.liveBytes.2
    by_cases hroom : live s + need len ≤ c
    · have hf : fits len (Compacted s ps c f) = true := (fits_compacted hw).mpr (by omega)
      refine .inl ⟨0, ?_, by simpa using hroom, by simp, by simp⟩
      rw [roomLoop, if_pos hf, pow_zero, mul_one, Nat.add_zero]
    · have hneed : 9 ≤ need len := by unfold need; omega
      have hnf : ¬ fits len (Compacted s ps c f) = true := by rw [fits_compacted hw]; omega
      have hg : growWanted len (Compacted s ps c f) = true := by
        simp only [growWanted, Bool.or_eq_true, decide_eq_true_eq, hl']
        right
        show c - _ < _
        omega
      cases ha : admits s.params (2 * c) with
      | true =>
        have hcc : compact (2 * c) (Compacted s ps c f) = .ok (Compacted s ps (2 * c) (f + 1)) :=
          (hring.compacted (2 * c) (by omega)).1
        have hstep : roomStep len (Compacted s ps c f) = .ready (Compacted s ps (2 * c) (f + 1)) := by
          unfold roomStep
          rw [hg, show admits (Compacted s ps c f).params (Config.growthFactor * (Compacted s ps c f).cap) =
            true from ha]
          simp only [Bool.and_self, if_true]
          unfold compactRoom
          rw [show Config.growthFactor * (Compacted s ps c f).cap = 2 * c from rfl, hcc]
        rw [roomLoop, if_neg hnf, hstep]
        simp only
        have e : ∀ j, 2 * c * 2 ^ j = c * 2 ^ (j + 1) := fun j => by rw [pow_succ]; ring
        rcases ih (2 * c) (f + 1) (by omega) (by omega) (by rw [pow_succ] at hfuel; linarith) with
          ⟨k, h1, h2, h3, h4⟩ | ⟨h1, k, h2, h3⟩
        · simp only [e, show f + 1 + k = f + (k + 1) by omega] at h1 h2 h3 h4
          refine .inl ⟨k + 1, h1, h2, fun j hj => ?_, fun _ => ?_⟩
          · cases j with
            | zero => simp; omega
            | succ j => exact h3 j (by omega)
          · by_cases hk : k = 0
            · subst hk
              rw [show c * 2 ^ (0 + 1) = 2 * c by ring]
              exact ha
            · exact h4 hk
        · simp only [e] at h2 h3
          exact .inr ⟨h1, k + 1, h2, h3⟩
      | false =>
        right
        have hstep : roomStep len (Compacted s ps c f) = .overCap := by
          unfold roomStep
          rw [hg, show admits (Compacted s ps c f).params (Config.growthFactor * (Compacted s ps c f).cap) =
            false from ha, hl']
          simp only [Bool.and_false, Bool.false_eq_true, if_false]
          rw [if_neg]
          show ¬ need len ≤ c - _
          omega
        refine ⟨by rw [roomLoop, if_neg hnf, hstep], 0, by simpa using hroom, ?_⟩
        rw [show c * 2 ^ (0 + 1) = 2 * c by ring]
        exact ha

end Sys2Proof.Machine
end

