-- ==== Sys2Proof/Laws/Place.lean ====
section
/-! SUPPORT. Placing a packet keeps the ring and appends the packet (40_ring_write.md R80, R89; 10_state.md
R38). -/

namespace Sys2Proof.Machine

/-- A ring of packets within the bounds of 10_state.md R33 and R34: what a legal state's registers and
STORE come to. -/
structure Ringed (s : State) (ps : List Packet) : Prop where
  ring : Ring s ps
  wr_le : s.wr ≤ s.cap
  rd_le : s.rd ≤ s.cap
  tb : wrapped s = true → s.rd < s.tb ∧ s.tb + 1 ≤ s.cap
  empty : s.cnt = 0 → s.rd = s.wr

/-- A legal state is a ring of the packets `pkts` names (10_state.md R33 to R35, R38). -/
theorem LegalState.ringed {s : State} (h : LegalState s) : ∃ ps, Ringed s ps ∧ pkts s = some ps := by
  obtain ⟨ps, h1, h2⟩ := h.layout.ring h.bounds.rd_le
  exact ⟨ps, ⟨h1, h.bounds.wr_le, h.bounds.rd_le, h.bounds.tb_inside, h.empty⟩, h2⟩

/-- The live bytes fit the store. -/
theorem Ringed.live_le {s : State} {ps : List Packet} (h : Ringed s ps) : live s ≤ s.cap := by
  have := h.wr_le
  have := h.rd_le
  unfold live
  split_ifs with hw
  · have := h.tb hw
    simp [wrapped] at hw
    omega
  · omega

/-- Head placement appends the packet (40_ring_write.md R80). -/
theorem Ringed.placedAtHead {s : State} {ps : List Packet} (h : Ringed s ps) (len skip : Word)
    (data : List Byte) (h1 : data.length = len.toNat) (h3 : skip.toNat ≤ len.toNat)
    (h4 : 8 < spaceAtHead s) (h5 : len.toNat + 8 ≤ spaceAtHead s) (t : State)
    (ht : t = { s with
      store := (s.store.setBytes s.wr (subHeader len skip)).setBytes (s.wr + 8) data
      wr := s.wr + 8 + len.toNat
      cnt := s.cnt + 1 }) : Ringed t (ps ++ [⟨len, skip, data⟩]) := by
  have hnew : ∀ p ∈ ps ++ [(⟨len, skip, data⟩ : Packet)], p.Stored := by
    intro p hp
    rcases List.mem_append.mp hp with hp | hp
    · exact h.ring.stored p hp
    · simp at hp; subst hp; exact ⟨h1, h3⟩
  have hget : ∀ a, (a < s.wr ∨ s.wr + 8 + len.toNat ≤ a) → t.store.get a = s.store.get a := by
    intro a ha; subst ht
    show ((s.store.setBytes s.wr (subHeader len skip)).setBytes (s.wr + 8) data).get a = _
    rw [Memory.get_setBytes_out _ _ (by omega), Memory.get_setBytes_out _ _ (by simp; omega)]
  have hin : s.wr + 8 + len.toNat ≤ s.cap := by
    have := h.rd_le; have := h.wr_le
    unfold spaceAtHead at h4 h5; split_ifs at h4 h5 <;> omega
  have hhold : Holds t s.wr (Packet.bytes ⟨len, skip, data⟩) := by
    subst ht
    refine ⟨by simp [Packet.length_bytes, h1]; omega, fun j hj => ?_⟩
    simp [Packet.length_bytes] at hj
    show ((s.store.setBytes s.wr (subHeader len skip)).setBytes (s.wr + 8) data).get (s.wr + j) = _
    by_cases hj8 : j < 8
    · rw [Memory.get_setBytes_out _ _ (by omega),
        Memory.get_setBytes_in _ _ (by omega) (by simp; omega), Nat.add_sub_cancel_left, Packet.bytes,
        List.getElem?_append_left (by simp; omega)]
    · rw [Memory.get_setBytes_in _ _ (by omega) (by omega), Packet.bytes,
        List.getElem?_append_right (by simp; omega)]
      simp; congr 1; omega
  have hcap : t.cap = s.cap := by subst ht; rfl
  have hrd : t.rd = s.rd := by subst ht; rfl
  have htb : t.tb = s.tb := by subst ht; rfl
  have hwr : t.wr = s.wr + 8 + len.toNat := by subst ht; rfl
  have hcnt : t.cnt = s.cnt + 1 := by subst ht; rfl
  have hbl : (Packet.bytes ⟨len, skip, data⟩).length = 8 + len.toNat := by simp [Packet.length_bytes, h1]
  have hring : Ring t (ps ++ [⟨len, skip, data⟩]) ∧ (wrapped t = wrapped s) := by
    cases h.ring with
    | straight hw hc hps hold hwr' =>
      have hw' : wrapped t = false := by
        simp [wrapped, hwr, hrd]; omega
      refine ⟨.straight hw' (by rw [hcnt]; simp [hc]) hnew ?_ ?_, by rw [hw, hw']⟩
      · rw [flat_append, holds_append, hrd, ← hwr']
        refine ⟨hold.congr (by omega) fun j a b => hget _ (by omega), by simpa using hhold⟩
      · rw [flat_append, List.length_append, hwr, hrd, hwr']; simp [hbl]; omega
    | around pre k post hsplit hw hc hps tail htb' hjump head hwr' =>
      simp [spaceAtHead, hw] at h4 h5
      have hw' : wrapped t = true := by
        simp [wrapped, hwr, hrd, hcnt]; omega
      refine ⟨.around pre k (post ++ [⟨len, skip, data⟩]) (by simp [hsplit]) hw'
        (by rw [hcnt]; simp [hc]) hnew ?_ (by rw [htb, hrd]; exact htb')
        (by rw [hcap, htb]; exact hjump) ?_ ?_, by rw [hw, hw']⟩
      · rw [hrd]; exact tail.congr (by omega) fun j a b => hget _ (by omega)
      · rw [flat_append, ← List.append_assoc, holds_append]
        refine ⟨head.congr (by omega) fun j a b => hget _ (by simp at b; omega), ?_⟩
        have : 0 + (k.data ++ flat post).length = s.wr := by simp; omega
        rw [this]; simpa using hhold
      · rw [flat_append, List.length_append, hwr, hwr']; simp [hbl]; omega
  refine ⟨hring.1, by omega, by rw [hrd, hcap]; exact h.rd_le, ?_, by omega⟩
  rw [hring.2, hrd, htb, hcap]; exact h.tb

/-- Start-region placement appends the packet (40_ring_write.md R89). -/
theorem Ringed.placedAtStart {s : State} {ps : List Packet} (h : Ringed s ps) (len skip : Word)
    (data : List Byte) (h1 : data.length = len.toNat) (h3 : skip.toNat ≤ len.toNat)
    (h4 : 8 < spaceAtHead s) (h5 : spaceAtHead s < len.toNat + 8) (h6 : len.toNat + 8 ≤ spaceAtStart s)
    (t : State)
    (ht : t = { s with
      store := (s.store.setBytes s.wr (subHeader len skip)).setBytes 0 data
      wr := len.toNat
      tb := s.wr + 8
      cnt := s.cnt + 1 }) : Ringed t (ps ++ [⟨len, skip, data⟩]) := by
  have hw : wrapped s = false := by
    by_contra hc; simp at hc; simp [spaceAtStart, hc] at h6
  simp [spaceAtStart, spaceAtHead, hw] at h4 h5 h6
  have hnew : ∀ p ∈ ps ++ [(⟨len, skip, data⟩ : Packet)], p.Stored := by
    intro p hp
    rcases List.mem_append.mp hp with hp | hp
    · exact h.ring.stored p hp
    · simp at hp; subst hp; exact ⟨h1, h3⟩
  have hle : s.rd ≤ s.wr := by
    rcases Nat.eq_zero_or_pos s.cnt with hc | hc
    · have := h.empty hc; omega
    · simp [wrapped] at hw; have := hw hc; omega
  have hget : ∀ a, (len.toNat ≤ a ∧ a < s.wr) → t.store.get a = s.store.get a := by
    intro a ha; subst ht
    show ((s.store.setBytes s.wr (subHeader len skip)).setBytes 0 data).get a = _
    rw [Memory.get_setBytes_out _ _ (by omega), Memory.get_setBytes_out _ _ (by simp; omega)]
  have hsub : Holds t s.wr (subHeader len skip) := by
    subst ht
    refine ⟨by simp; omega, fun j hj => ?_⟩
    simp at hj
    show ((s.store.setBytes s.wr (subHeader len skip)).setBytes 0 data).get (s.wr + j) = _
    rw [Memory.get_setBytes_out _ _ (by omega),
      Memory.get_setBytes_in _ _ (by omega) (by simp; omega), Nat.add_sub_cancel_left]
  have hdat : Holds t 0 data := by
    subst ht
    have := h.rd_le
    refine ⟨by simp [h1]; omega, fun j hj => ?_⟩
    show ((s.store.setBytes s.wr (subHeader len skip)).setBytes 0 data).get (0 + j) = _
    rw [Memory.get_setBytes_in _ _ (by omega) (by omega)]; simp
  have hcap : t.cap = s.cap := by subst ht; rfl
  have hrd : t.rd = s.rd := by subst ht; rfl
  have htb : t.tb = s.wr + 8 := by subst ht; rfl
  have hwr : t.wr = len.toNat := by subst ht; rfl
  have hcnt : t.cnt = s.cnt + 1 := by subst ht; rfl
  have hw' : wrapped t = true := by simp [wrapped, hwr, hrd, hcnt]; omega
  have hring : Ring t (ps ++ [⟨len, skip, data⟩]) := by
    cases h.ring with
    | around pre k post hsplit hww => rw [hw] at hww; cases hww
    | straight _ hc hps hold hwr' =>
      refine .around ps ⟨len, skip, data⟩ [] (by simp) hw' (by rw [hcnt]; simp [hc]) hnew ?_
        (by rw [htb, hrd, hwr']) (by rw [hcap, htb]; simp; omega) (by simpa using hdat)
        (by rw [hwr]; simp [h1])
      rw [holds_append, hrd, ← hwr']
      exact ⟨hold.congr (by omega) fun j a b => hget _ (by omega), hsub⟩
  have := h.rd_le
  exact ⟨hring, by omega, by omega, fun _ => by omega, by omega⟩

end Sys2Proof.Machine
end

