-- ==== Sys2Proof/Machine/Asm.lean ====
section
/-! DEFINITION. The text form of commands and the pseudo-commands (30_encoding.md R73, R74). No step
reads them: they are the notation test programs are written in. -/

namespace Sys2Proof.Machine

/-- The tokens of the text form (30_encoding.md R73). -/
inductive Tok where
  | word (w : List Char)
  | colon | comma | lbrace | rbrace | lbracket | rbracket | star
deriving DecidableEq, Repr

/-- What a text line stands for. -/
inductive Line where
  /-- One transaction, legal or not. -/
  | cmd (port : Port) (r : Request)
  /-- TAKE (30_encoding.md R74): QUERY on port C, and then, if it answers a non-zero count, READ. -/
  | takePacket
deriving DecidableEq, Repr

/-- A one-character token; `none` for a space or a character of a word. -/
def symbolTok (c : Char) : Option Tok :=
  match c.toNat with
  | 58 => some .colon
  | 44 => some .comma
  | 123 => some .lbrace
  | 125 => some .rbrace
  | 91 => some .lbracket
  | 93 => some .rbracket
  | 42 => some .star
  | _ => none

/-- The word collected so far, if any, in reading order. -/
def flushWord (acc : List Char) : List Tok :=
  if acc.isEmpty then [] else [.word acc.reverse]

/-- Split a line into tokens; `acc` is the word being collected, last character first. -/
def tokenize : List Char → List Char → List Tok
  | acc, [] => flushWord acc
  | acc, c :: cs =>
    match symbolTok c with
    | some t => flushWord acc ++ t :: tokenize [] cs
    | none => if c.toNat = 32 then flushWord acc ++ tokenize [] cs else tokenize (c :: acc) cs

/-- The value of a digit in a base up to 16. -/
def digitVal (base : Nat) (c : Char) : Option Nat :=
  let n := c.toNat
  let v :=
    if 48 ≤ n ∧ n ≤ 57 then n - 48
    else if 65 ≤ n ∧ n ≤ 70 then n - 55
    else if 97 ≤ n ∧ n ≤ 102 then n - 87
    else 16
  if v < base then some v else none

/-- The value of a digit string, after the digits already read. -/
def digitsVal (base : Nat) : Nat → List Char → Option Nat
  | acc, [] => some acc
  | acc, c :: cs =>
    match digitVal base c with
    | some v => digitsVal base (base * acc + v) cs
    | none => none

/-- A number: decimal, or hexadecimal with the prefix 0x (30_encoding.md R73). -/
def numberVal : List Char → Option Nat
  | '0' :: 'x' :: d :: ds => digitsVal 16 0 (d :: ds)
  | d :: ds => digitsVal 10 0 (d :: ds)
  | [] => none

/-- A number that is an operand word or a command word. -/
def wordVal (w : List Char) : Option Word :=
  match numberVal w with
  | some n => if n < 4294967296 then some (BitVec.ofNat 32 n) else none
  | none => none

/-- A two-digit hexadecimal byte. -/
def byteVal : List Char → Option Byte
  | [a, b] =>
    match digitVal 16 a, digitVal 16 b with
    | some x, some y => some (BitVec.ofNat 8 (16 * x + y))
    | _, _ => none
  | _ => none

/-- The bytes up to the closing brace, and what follows it. -/
def bytesUpTo : List Tok → Option (List Byte × List Tok)
  | .rbrace :: rest => some ([], rest)
  | .word w :: rest =>
    match byteVal w, bytesUpTo rest with
    | some b, some (bs, rest') => some (b :: bs, rest')
    | _, _ => none
  | _ => none

/-- A byte list: bytes between braces, or n copies of one byte (30_encoding.md R73). It ends its line. -/
def byteList : List Tok → Option (List Byte)
  | [.lbrace, .word x, .star, .word n, .rbrace] =>
    match byteVal x, numberVal n with
    | some b, some k => some (List.replicate k b)
    | _, _ => none
  | .lbrace :: rest =>
    match bytesUpTo rest with
    | some (bs, []) => some bs
    | _ => none
  | _ => none

/-- One or more operand words, a comma between each two, up to the closing bracket, and what follows it. -/
def wordsUpTo : List Tok → Option (List Word × List Tok)
  | .word w :: .rbracket :: rest => (wordVal w).map fun v => ([v], rest)
  | .word w :: .comma :: rest =>
    match wordVal w, wordsUpTo rest with
    | some v, some (vs, rest') => some (v :: vs, rest')
    | _, _ => none
  | _ => none

/-- The operand words of `.raw` after the opening bracket: none, or `wordsUpTo` (30_encoding.md R73). -/
def wordList : List Tok → Option (List Word × List Tok)
  | .rbracket :: rest => some ([], rest)
  | toks => wordsUpTo toks

/-- A port by its name. -/
def portVal : List Char → Option Port
  | ['P'] => some .P
  | ['C'] => some .C
  | ['K'] => some .K
  | ['H'] => some .H
  | _ => none

/-- The operands of a WRITE line after its mnemonic: length, skip, bytes. -/
def writeOperands (len skip : List Char) (rest : List Tok) : Option Request :=
  match wordVal len, wordVal skip, byteList rest with
  | some l, some k, some bs => some ⟨0x00000001#32, [l, k], bs⟩
  | _, _, _ => none

/-- The operands of a DECODE line after its mnemonic: size, bytes. -/
def decodeOperands (size : List Char) (rest : List Tok) : Option Request :=
  match wordVal size, byteList rest with
  | some z, some bs => some ⟨0x00000005#32, [z], bs⟩
  | _, _ => none

/-- The request of a `.raw` line: any transaction (30_encoding.md R73). -/
def rawOperands : List Tok → Option Request
  | .word cw :: .comma :: .lbracket :: rest =>
    match wordVal cw, wordList rest with
    | some v, some (args, .comma :: rest') => (byteList rest').map fun bs => ⟨v, args, bs⟩
    | _, _ => none
  | _ => none

/-- The request a mnemonic and its operands stand for, the pseudo-commands expanded
(30_encoding.md R73, R74), before its port and its operand shape are looked at. -/
def requestVal (mnemonic : List Char) (operands : List Tok) : Option Request :=
  if mnemonic = "WRITE".toList then
    match operands with
    | .word len :: .comma :: .word skip :: .comma :: rest => writeOperands len skip rest
    | _ => none
  else if mnemonic = "WRITE0".toList then
    match operands with
    | .word len :: .comma :: rest => writeOperands len ['0'] rest
    | _ => none
  else if mnemonic = "DECODE".toList then
    match operands with
    | .word size :: .comma :: rest => decodeOperands size rest
    | _ => none
  else if mnemonic = "DECODE16".toList then decodeOperands ['1', '6'] operands
  else if mnemonic = "READ".toList then if operands = [] then some ⟨0x00000002#32, [], []⟩ else none
  else if mnemonic = "QUERY".toList ∨ mnemonic = "ISEMPTY".toList ∨ mnemonic = "AVAIL".toList then
    if operands = [] then some ⟨0x00000003#32, [], []⟩ else none
  else if mnemonic = "CLEAR".toList then if operands = [] then some ⟨0x00000004#32, [], []⟩ else none
  else none

/-- The request of a line with a mnemonic. R73 gives each mnemonic its ports and its operand shape, and
those are the ones that decode; the pseudo-commands of R74 have the ports of their expansions
(30_encoding.md; log entry 13). -/
def commandVal (port : Port) (mnemonic : List Char) (operands : List Tok) : Option Request :=
  match requestVal mnemonic operands with
  | some r =>
    match decode port r with
    | .ok _ => some r
    | .error _ => none
  | none => none

/-- The line a text stands for; `none` for a text that has none of the forms of 30_encoding.md R73 and R74
(log entry 13). -/
def assemble (text : List Char) : Option Line :=
  match tokenize [] text with
  | .word port :: .colon :: .word mnemonic :: operands =>
    match portVal port with
    | some p =>
      if mnemonic = "TAKE".toList then
        if p = .C ∧ operands = [] then some .takePacket else none
      else if mnemonic = ".raw".toList then (rawOperands operands).map fun r => .cmd p r
      else (commandVal p mnemonic operands).map fun r => .cmd p r
    | none => none
  | _ => none

/-- The input a line gives at once; for TAKE, its QUERY. -/
def Line.input : Line → Input
  | .cmd port r => .issue port r
  | .takePacket => .issue .C (encode (.query .C))

/-- The flag that ISEMPTY reads from QUERY's response (30_encoding.md R74). -/
def isEmptyFlag (r : Response) : Option Bool :=
  match r.rargs with
  | n :: _ => some (n == 0#32)
  | [] => none

/-- The flag that AVAIL reads from QUERY's response (30_encoding.md R74). -/
def availFlag (r : Response) : Option Bool :=
  match r.rargs with
  | n :: _ => some (n != 0#32)
  | [] => none

/-- TAKE's second command, given the response to its QUERY (30_encoding.md R74). -/
def takeSecond (r : Response) : Option Input :=
  match availFlag r with
  | some true => some (.issue .C (encode .read))
  | _ => none

end Sys2Proof.Machine
end

