-- ==== Sys2Proof/Tests/Slice0.lean ====
section
/-! SUPPORT. The model's own tests, and a witness for the hypotheses of each statement. Expected results are
those of 95_test_vectors.md (the row is named beside each test) and of the encodings R61 to R65. -/

namespace Sys2Proof.Tests

open Sys2Proof.Machine

/-! ## States -/

/-- A state with these registers and STORE bytes from offset 0 on, after reset(i, m). -/
def ring (params : Params) (cap rd wr tb cnt : Nat) (err : Word) (store : Memory) : State :=
  { State.resetWith params with
    cap := cap, rd := rd, wr := wr, tb := tb, cnt := cnt, err := err, store := store }

/-- The parameters of 95_test_vectors.md. -/
abbrev usual : Params := ⟨32, some 1024⟩

/-- W8 and W9's start. -/
abbrev emptyAt23 : State := ring usual 32 23 23 0 0 0#32 []

/-- P2 after command 3, RR6's start: one packet whose payload is at offset 0. -/
abbrev wrappedP2 : State :=
  ring usual 32 20 10 28 1 0#32
    (Memory.ofBytes 0 [0xB0, 0xB1, 0xB2, 0xB3, 0xB4, 0xB5, 0xB6, 0xB7, 0xB8, 0xB9] ++
      Memory.ofBytes 20 [0, 0, 0, 0x0A, 0, 0, 0, 2])

/-- W13's start: one packet of five bytes at offset 0. -/
abbrev wrappedW13 : State :=
  ring usual 32 20 5 28 1 0#32
    (Memory.ofBytes 0 [0xB0, 0xB1, 0xB2, 0xB3, 0xB4] ++ Memory.ofBytes 20 [0, 0, 0, 5, 0, 0, 0, 0])

/-- W6's end: one packet that fills the store. -/
abbrev fullW6 : State :=
  ring usual 32 0 32 0 1 0#32 (Memory.ofBytes 0 ([0, 0, 0, 24, 0, 0, 0, 0] ++ List.replicate 24 0x5A))

/-- W16's start: CAP at CAP_MAX. -/
abbrev cappedW16 : State :=
  ring ⟨32, some 32⟩ 32 0 18 0 1 0#32 (Memory.ofBytes 0 ([0, 0, 0, 10, 0, 0, 0, 0] ++ List.replicate 10 0x5A))

/-- W16's end. -/
abbrev fatalW16 : State := { cappedW16 with err := 8#32 }

/-- W14 and W15's start: the first packet was read, the second fills the store's end. -/
abbrev atEnd (params : Params) : State :=
  ring params 32 12 32 0 1 0#32
    (Memory.ofBytes 0 ([0, 0, 0, 4, 0, 0, 0, 0] ++ List.replicate 4 0x5A ++ [0, 0, 0, 12, 0, 0, 0, 0] ++
      List.replicate 12 0x5A))

/-- A result is a next state with this property. -/
def nextIs (r : Result) (p : State → Bool) : Bool :=
  match r with
  | .next s => p s
  | _ => false

/-- CAP, RD, WR, TB, CNT and ERR, as 95_test_vectors.md writes a state. -/
def regs (s : State) : List Nat := [s.cap, s.rd, s.wr, s.tb, s.cnt, s.err.toNat]

/-- STORE's bytes from `i` on. -/
def bytesAt (s : State) (i n : Nat) : List (Option Byte) := (List.range n).map fun j => s.store.get (i + j)

/-- X1's window. -/
abbrev goodWindow : List Byte :=
  [0xAA, 0x55, 0xAA, 0x55, 0xB0, 0x04, 0, 0, 6, 0, 0, 0, 0xF9, 0xFF, 0xFF, 0xFF]

/-! ## WellFormed, Decode and encode -/

theorem test_writeLengthIsChecked :
    (Instr.write 2#32 0#32 [1]).wellFormed = false ∧ (Instr.write 2#32 0#32 [1, 2]).wellFormed = true := by
  decide

theorem test_queryPortIsChecked :
    (Instr.query .H).wellFormed = false ∧ (Instr.query .P).wellFormed = true := by decide

theorem test_decodeWindowIsChecked :
    (Instr.decode 16#32 (List.replicate 15 0)).wellFormed = false ∧
      (Instr.decode 15#32 (List.replicate 16 0)).wellFormed = true := by decide

/-- R58, R60: OP is bits 3:0 of the command word; the words are written out from RSVD and OP. -/
theorem test_opcodeWords :
    decode .P ⟨0x0000000#28 ++ 0b0001#4, [1#32, 0#32], [7]⟩ = .ok (.write 1#32 0#32 [7]) ∧
      decode .C ⟨0x0000000#28 ++ 0b0010#4, [], []⟩ = .ok .read ∧
      decode .K ⟨0x0000000#28 ++ 0b0011#4, [], []⟩ = .ok (.query .K) ∧
      decode .K ⟨0x0000000#28 ++ 0b0100#4, [], []⟩ = .ok .clear ∧
      decode .H ⟨0x0000000#28 ++ 0b0101#4, [15#32], goodWindow⟩ = .ok (.decode 15#32 goodWindow) := by decide

/-- IL1 to IL5: reserved OP, RSVD not 0, and the port table. -/
theorem test_illegalWords :
    decode .P ⟨7#32, [], []⟩ = .error (.reservedOp 7#4) ∧ decode .P ⟨0#32, [], []⟩ = .error (.reservedOp 0#4) ∧
      decode .P ⟨0x11#32, [], []⟩ = .error (.reservedBits 1#28) ∧
      decode .P ⟨2#32, [], []⟩ = .error (.wrongPort .P .read) ∧
      decode .C ⟨1#32, [1, 0], [1]⟩ = .error (.wrongPort .C .write) := by decide

/-- IL6 to IL11: shapes and ports. -/
theorem test_illegalShapes :
    decode .P ⟨1#32, [2, 0], [1]⟩ = .error (.wrongShape .write) ∧
      decode .P ⟨1#32, [1], [1]⟩ = .error (.wrongShape .write) ∧
      decode .H ⟨5#32, [16], List.replicate 15 0⟩ = .error (.wrongShape .decode) ∧
      decode .H ⟨3#32, [], []⟩ = .error (.wrongPort .H .query) ∧
      decode .C ⟨4#32, [], []⟩ = .error (.wrongPort .C .clear) ∧
      decode .P ⟨3#32, [1], []⟩ = .error (.wrongShape .query) := by decide

/-- R61, R65: the encodings of a WRITE and a DECODE. -/
theorem test_encode :
    encode (.write 2#32 1#32 [0x88, 0x99]) = ⟨1#32, [2#32, 1#32], [0x88, 0x99]⟩ ∧
      encode (.decode 16#32 goodWindow) = ⟨5#32, [16#32], goodWindow⟩ := by decide

/-- The five table words with operand words of zeros. -/
theorem test_tableWords :
    decodeTableWord 32 1 = some (.write 0#32 0#32 []) ∧ decodeTableWord 32 2 = some .read ∧
      decodeTableWord 32 3 = some (.query .C) ∧ decodeTableWord 32 4 = some .clear ∧
      decodeTableWord 32 5 = some (.decode 0#32 (List.replicate 16 0)) ∧ decodeTableWord 32 6 = none := by decide

/-- A flat transaction carries its operand words and data bytes above the command word. -/
theorem test_flatOperands :
    decodeTableWord 112 0x9988_00000001_00000002_00000001 = some (.write 2#32 1#32 [0x88, 0x99]) := by decide

theorem test_tableWordsRunFirst :
    (nextIs (step (State.reset.withFetchWord 32 1)) fun s => regs s == [32, 0, 8, 0, 1, 0]) ∧
      (nextIs (step (State.reset.withFetchWord 32 2)) fun s => regs s == [32, 0, 0, 0, 0, 1]) ∧
      (nextIs (step (State.reset.withFetchWord 32 3)) fun s => lastResponse .C s == some ⟨.ok, [0, 0], []⟩) ∧
      (nextIs (step (State.reset.withFetchWord 32 4)) fun s => lastResponse .K s == some ⟨.ok, [], []⟩) ∧
      (nextIs (step (State.reset.withFetchWord 32 5)) fun s => s.hdrResult == 6#32) := by decide

/-! ## One step each -/

/-- W9: the payload goes to offset 0. -/
theorem test_writeWraps :
    nextIs (execWrite 2#32 0#32 [0x88, 0x99] emptyAt23) fun s =>
      regs s == [32, 23, 2, 31, 1, 0] && lastResponse .P s == some ⟨.ok, [], []⟩ &&
      bytesAt s 23 8 == [some 0, some 0, some 0, some 2, some 0, some 0, some 0, some 0] &&
      bytesAt s 0 2 == [some 0x88, some 0x99] := by decide

/-- W13: compaction of a wrapped store, then placement at the head. -/
theorem test_writeCompacts :
    nextIs (execWrite 8#32 0#32 [0xC0, 0xC1, 0xC2, 0xC3, 0xC4, 0xC5, 0xC6, 0xC7] wrappedW13) fun s =>
      regs s == [32, 0, 29, 28, 2, 0] &&
      s.store == Memory.ofBytes 0 [0, 0, 0, 5, 0, 0, 0, 0, 0xB0, 0xB1, 0xB2, 0xB3, 0xB4,
        0, 0, 0, 8, 0, 0, 0, 0, 0xC0, 0xC1, 0xC2, 0xC3, 0xC4, 0xC5, 0xC6, 0xC7] := by decide

/-- RR6: the read jumps to offset 0 and starts at skip. -/
theorem test_readJumps :
    nextIs (execRead wrappedP2) fun s =>
      regs s == [32, 10, 10, 28, 0, 0] &&
      lastResponse .C s == some ⟨.ok, [8], [0xB2, 0xB3, 0xB4, 0xB5, 0xB6, 0xB7, 0xB8, 0xB9]⟩ := by decide

/-- RR4: RD + 8 + len = CAP exactly is no jump. -/
theorem test_readToTheEnd :
    nextIs (execRead fullW6) fun s =>
      regs s == [32, 32, 32, 0, 0, 0] && lastResponse .C s == some ⟨.ok, [24], List.replicate 24 0x5A⟩ := by decide

/-- R37: before anything is written, a byte of STORE is a free value, and a READ that reached one would answer
it. -/
theorem test_unspecifiedByteIsFree :
    storeByte State.reset 5 = Config.unspecifiedByte 0 5 ∧
      storeByte (hardReset State.reset) 5 = Config.unspecifiedByte 1 5 ∧
      execRead (ring usual 32 0 9 0 1 0#32 (Memory.ofBytes 0 [0, 0, 0, 1, 0, 0, 0, 0])) =
        .next (answered .C .ok [1#32] [Config.unspecifiedByte 0 8]
          (ring usual 32 9 9 0 0 0#32 (Memory.ofBytes 0 [0, 0, 0, 1, 0, 0, 0, 0]))) := ⟨rfl, rfl, rfl⟩

/-- Q2. -/
theorem test_queryShowsErr :
    nextIs (execQuery .P (ring usual 32 0 0 0 0 2#32 [])) fun s =>
      lastResponse .P s == some ⟨.ok, [0, 2], []⟩ && s.sent.c == [] := by decide

/-- CL1: CAP and TB stay. -/
theorem test_clearKeepsCapAndTb :
    nextIs (execClear (ring usual 64 18 54 28 2 1#32 [])) fun s =>
      regs s == [64, 0, 0, 28, 0, 0] && lastResponse .K s == some ⟨.ok, [], []⟩ := by decide

/-- CL3: CLEAR cannot leave FATAL. -/
theorem test_clearInFatal :
    nextIs (execClear fatalW16) fun s =>
      regs s == [32, 0, 18, 0, 1, 8] && lastResponse .K s == some ⟨.errFatal, [], []⟩ := by decide

/-- X1. -/
theorem test_decodeVideo :
    nextIs (execDecode 16#32 goodWindow State.reset) fun s =>
      lastResponse .H s == some ⟨.ok, [0x11, 1200, 6, 0], []⟩ && isVideo s := by decide

/-- DC9: size and magic both wrong, size wins. -/
theorem test_decodeSizeFirst :
    nextIs (execDecode 15#32 ([0x78, 0x56, 0x34, 0x12] ++ List.replicate 12 0) State.reset) fun s =>
      lastResponse .H s == some ⟨.ok, [0x06, 0, 0, 15], []⟩ := by decide

/-- PR1: in FATAL a reserved OP answers ERR_ILLEGAL. -/
theorem test_illegalBeforeFatal :
    nextIs (step (present .C ⟨9#32, [], []⟩ fatalW16)) fun s =>
      s.err == 0xC#32 && lastResponse .C s == some ⟨.errIllegal, [], []⟩ := by decide

/-- P6: a WRITE and a READ offered at the same time, and the arbiter's two choices. -/
abbrev bothP6 (order : List Port) : State :=
  { State.reset with
    inputs := [.issue .P ⟨1#32, [4, 0], [1, 2, 3, 4]⟩, .issue .C ⟨2#32, [], []⟩] ++ order.map .take }

theorem test_writeThenReadP6 :
    nextIs (Host.Core.run Sys2Proof.core 4 (bothP6 [.P, .C])) fun s =>
      regs s == [32, 12, 12, 0, 0, 0] && s.sent.c == [⟨.ok, [4], [1, 2, 3, 4]⟩] := by decide

theorem test_readThenWriteP6 :
    nextIs (Host.Core.run Sys2Proof.core 4 (bothP6 [.C, .P])) fun s =>
      regs s == [32, 0, 12, 0, 1, 1] && s.sent.c == [⟨.errEmpty, [], []⟩] := by decide

/-- P5, command 7. -/
theorem test_hardResetLeavesFatal :
    nextIs (step { fatalW16 with inputs := [.hardReset], hdrInfo := 15#32 }) fun s =>
      regs s == [32, 0, 0, 0, 0, 0] && s.hdrInfo == 0#32 && s.store == [] := by decide

theorem test_resetMemoryIsCanonical : State.reset.store.wf := by decide

/-! ## The text form (R73, R74): `<` and `>` stand for the braces -/

/-- A text with its braces. -/
def braced (text : String) : List Char :=
  text.toList.map fun c => if c = '<' then Char.ofNat 123 else if c = '>' then Char.ofNat 125 else c

theorem test_textOfWrite :
    assemble (braced "P: WRITE 4, 0x1, <01 02 0a FF>") =
      some (.cmd .P ⟨1#32, [4#32, 1#32], [0x01, 0x02, 0x0A, 0xFF]⟩) := by decide

theorem test_textOfPseudo :
    assemble (braced "P: WRITE0 3, <5A * 3>") = some (.cmd .P ⟨1#32, [3#32, 0#32], [0x5A, 0x5A, 0x5A]⟩) ∧
      assemble (braced "K: ISEMPTY") = some (.cmd .K ⟨3#32, [], []⟩) ∧
      assemble (braced "C: TAKE") = some .takePacket := by decide

/-- Texts outside R73's forms: a comma after the last operand, a port R73 does not give the mnemonic, and
fewer bytes than the length. -/
theorem test_textOutsideTheForms :
    assemble (braced "P: .raw 0x3, [1,], <>") = none ∧ assemble (braced "P: READ") = none ∧
      assemble (braced "P: WRITE 2, 0, <01>") = none ∧
      assemble (braced "P: .raw 0x2, [], <>") = some (.cmd .P ⟨2#32, [], []⟩) := by decide

theorem test_textOfRaw :
    assemble (braced "P: .raw 0x7, [], <>") = some (.cmd .P ⟨7#32, [], []⟩) ∧
      assemble (braced "P: .raw 0x3, [1], <>") = some (.cmd .P ⟨3#32, [1#32], []⟩) := by decide

/-! ## Legal states -/

theorem legal_usual : usual.Legal where
  one_le_init := by decide
  init_le_max := by intro m h; cases h; decide
  max_le := by intro m h; cases h; decide

theorem legal_capped : Params.Legal ⟨32, some 32⟩ where
  one_le_init := by decide
  init_le_max := by intro m h; cases h; decide
  max_le := by intro m h; cases h; decide

theorem witness_ResetIsLegal : usual.Legal ∧ (⟨1, none⟩ : Params).Legal :=
  ⟨legal_usual, by decide, nofun, nofun⟩

theorem legal_emptyAt23 : LegalState emptyAt23 where
  params := legal_usual
  bounds := ⟨⟨0, by decide⟩, by decide, by decide, by decide, by decide⟩
  empty := by decide
  layout := ⟨[], by decide, by decide, by decide⟩
  store := ⟨by decide, by decide⟩
  err := by unfold ErrLegal; decide
  hdr := .noDecode rfl rfl rfl rfl

theorem legal_wrappedP2 : LegalState wrappedP2 where
  params := legal_usual
  bounds := ⟨⟨0, by decide⟩, by decide, by decide, by decide, by decide⟩
  empty := by decide
  layout := ⟨[⟨20, 10#32, 2#32, 0⟩], by decide, by decide, by decide⟩
  store := ⟨by decide, by decide⟩
  err := by unfold ErrLegal; decide
  hdr := .noDecode rfl rfl rfl rfl

theorem legal_wrappedW13 : LegalState wrappedW13 where
  params := legal_usual
  bounds := ⟨⟨0, by decide⟩, by decide, by decide, by decide, by decide⟩
  empty := by decide
  layout := ⟨[⟨20, 5#32, 0#32, 0⟩], by decide, by decide, by decide⟩
  store := ⟨by decide, by decide⟩
  err := by unfold ErrLegal; decide
  hdr := .noDecode rfl rfl rfl rfl

theorem legal_fullW6 : LegalState fullW6 where
  params := legal_usual
  bounds := ⟨⟨0, by decide⟩, by decide, by decide, by decide, by decide⟩
  empty := by decide
  layout := ⟨[⟨0, 24#32, 0#32, 8⟩], by decide, by decide, by decide⟩
  store := ⟨by decide, by decide⟩
  err := by unfold ErrLegal; decide
  hdr := .noDecode rfl rfl rfl rfl

theorem legal_cappedW16 : LegalState cappedW16 where
  params := legal_capped
  bounds := ⟨⟨0, by decide⟩, by decide, by decide, by decide, by decide⟩
  empty := by decide
  layout := ⟨[⟨0, 10#32, 0#32, 8⟩], by decide, by decide, by decide⟩
  store := ⟨by decide, by decide⟩
  err := by unfold ErrLegal; decide
  hdr := .noDecode rfl rfl rfl rfl

theorem legal_W15 : LegalState (atEnd usual) where
  params := legal_usual
  bounds := ⟨⟨0, by decide⟩, by decide, by decide, by decide, by decide⟩
  empty := by decide
  layout := ⟨[⟨12, 12#32, 0#32, 20⟩], by decide, by decide, by decide⟩
  store := ⟨by decide, by decide⟩
  err := by unfold ErrLegal; decide
  hdr := .noDecode rfl rfl rfl rfl

theorem legal_W14 : LegalState (atEnd ⟨32, some 32⟩) where
  params := legal_capped
  bounds := ⟨⟨0, by decide⟩, by decide, by decide, by decide, by decide⟩
  empty := by decide
  layout := ⟨[⟨12, 12#32, 0#32, 20⟩], by decide, by decide, by decide⟩
  store := ⟨by decide, by decide⟩
  err := by unfold ErrLegal; decide
  hdr := .noDecode rfl rfl rfl rfl

/-- The reset state of a PRBC with CAP_MAX = infinity. -/
abbrev unbounded : State := State.resetWith ⟨1, none⟩

theorem legal_unbounded : LegalState unbounded where
  params := witness_ResetIsLegal.2
  bounds := ⟨⟨0, by decide⟩, by decide, by decide, by decide, by decide⟩
  empty := by decide
  layout := ⟨[], by decide, by decide, by decide⟩
  store := ⟨by decide, by decide⟩
  err := by unfold ErrLegal; decide
  hdr := .noDecode rfl rfl rfl rfl

/-- `emptyAt23` with something to do: a command pending on C, one offered on it, and one on H. -/
abbrev busy : State :=
  { emptyAt23 with
    pend := ⟨none, some ⟨2#32, [], []⟩, none, none⟩
    inputs := [.issue .C ⟨3#32, [], []⟩, .issue .H ⟨9#32, [], []⟩, .take .H] }

theorem legal_busy : LegalState busy where
  params := legal_usual
  bounds := ⟨⟨0, by decide⟩, by decide, by decide, by decide, by decide⟩
  empty := by decide
  layout := ⟨[], by decide, by decide, by decide⟩
  store := ⟨by decide, by decide⟩
  err := by unfold ErrLegal; decide
  hdr := .noDecode rfl rfl rfl rfl

/-! ## Hypotheses that something meets -/

theorem witness_DecodeOfEncodeIsTheCommand :
    (Instr.write 0#32 5#32 []).wellFormed = true ∧ Instr.read.wellFormed = true ∧
      (Instr.query .C).wellFormed = true ∧ Instr.clear.wellFormed = true ∧
      (Instr.decode 0xFFFFFFFF#32 goodWindow).wellFormed = true := by decide

theorem witness_DecodedTransactionIsItsEncoding :
    decode .H ⟨5#32, [0#32], goodWindow⟩ = .ok (.decode 0#32 goodWindow) := by decide

theorem witness_OtherTransactionsAreIllegal :
    (bothP6 [.C]).inputs ≠ [] ∧
      (present .C ⟨9#32, [], []⟩ fatalW16).inputs = .take .C :: [] ∧
      (present .C ⟨9#32, [], []⟩ fatalW16).pend.get .C = some ⟨9#32, [], []⟩ ∧
      ¬ ∃ i, decode .C ⟨9#32, [], []⟩ = .ok i :=
  ⟨by decide, rfl, rfl, nofun⟩

theorem witness_WindowIsFourWords : goodWindow.length = 16 := by decide

theorem witness_StepRunsTheDecodedCommand :
    (present .C ⟨2#32, [], []⟩ wrappedP2).inputs = .take .C :: [] ∧
      (present .C ⟨2#32, [], []⟩ wrappedP2).pend.get .C = some ⟨2#32, [], []⟩ ∧
      decode .C ⟨2#32, [], []⟩ = .ok .read := ⟨rfl, rfl, by decide⟩

theorem witness_PresentedWordRuns : decodeTableWord 32 4 = some .clear := by decide

theorem witness_OfferedCommandWaitsForItsPort :
    busy.inputs.head? = some (.issue .C ⟨3#32, [], []⟩) ∧ (busy.pend.get .C).isSome = true ∧
      (bothP6 []).inputs.head? = some (.issue .P ⟨1#32, [4, 0], [1, 2, 3, 4]⟩) ∧
      (bothP6 []).pend.get .P = none := by decide

theorem witness_AnyPendingPortCanBeNext :
    busy.pend.get .C = some ⟨2#32, [], []⟩ ∧ State.inputs { busy with inputs := [] } = [] ∧
      Port.C ∈ pendingPorts { busy with inputs := [] } := by decide

theorem witness_FinishedRunStays : RunOver wrappedP2 := ⟨rfl, by decide⟩

theorem witness_HardResetValues :
    State.inputs { fatalW16 with inputs := [.hardReset, .take .P] } = .hardReset :: [.take .P] := rfl

/-- W6 is the boundary len + 8 = spaceAtHead, W1 the length 0. -/
theorem witness_WriteAtHead :
    inFatal State.reset = false ∧ 8 < spaceAtHead State.reset ∧
      (24#32).toNat + 8 = spaceAtHead State.reset ∧ State.reset.wr + 8 + (24#32).toNat = State.reset.cap ∧
      (0#32).toNat ≤ (24#32).toNat ∧ (List.replicate 24 (0x5A : Byte)).length = (24#32).toNat ∧
      ([] : List Byte).length = (0#32).toNat ∧ (0#32).toNat + 8 ≤ spaceAtHead State.reset := by decide

/-- W9 has spaceAtHead = 9; a length of 15 is the boundary len + 8 = spaceAtStart. -/
theorem witness_WriteAtStart :
    inFatal emptyAt23 = false ∧ 8 < spaceAtHead emptyAt23 ∧ spaceAtHead emptyAt23 < (2#32).toNat + 8 ∧
      (15#32).toNat + 8 = spaceAtStart emptyAt23 ∧ emptyAt23.rd ≤ emptyAt23.cap ∧
      ([0x88, 0x99] : List Byte).length = (2#32).toNat ∧ (2#32).toNat ≤ (2#32).toNat ∧
      spaceAtHead emptyAt23 < (15#32).toNat + 8 ∧ (2#32).toNat + 8 ≤ spaceAtStart emptyAt23 := by decide

theorem reachable_W13 : RoomReachable 8 wrappedW13 := ⟨0, by decide, by decide⟩

theorem reachable_W4 : RoomReachable 0 fullW6 := ⟨1, by decide, by decide⟩

/-- Room at the present CAP and a low live fraction (W13), no room at the present CAP (W4's command in a full
store), and live >= CAP div 2 with room at the present CAP, where CAP_MAX admits the growth (W15) and
where it does not (W14). -/
theorem witness_WriteAfterMakingRoom :
    (LegalState wrappedW13 ∧ fits 8 wrappedW13 = false ∧ RoomReachable 8 wrappedW13 ∧
      live wrappedW13 + need 8 ≤ wrappedW13.cap ∧ inFatal wrappedW13 = false) ∧
    (LegalState fullW6 ∧ fits 0 fullW6 = false ∧ RoomReachable 0 fullW6 ∧ inFatal fullW6 = false ∧
      fullW6.cap < live fullW6 + need 0 ∧ ([] : List Byte).length = (0#32).toNat ∧
      (0#32).toNat ≤ (0#32).toNat) ∧
    (LegalState (atEnd usual) ∧ fits 0 (atEnd usual) = false ∧ RoomReachable 0 (atEnd usual) ∧
      inFatal (atEnd usual) = false ∧ live (atEnd usual) + need 0 ≤ (atEnd usual).cap ∧
      (atEnd usual).cap / 2 ≤ live (atEnd usual) ∧ admits usual (2 * (atEnd usual).cap) = true) ∧
    (LegalState (atEnd ⟨32, some 32⟩) ∧ fits 0 (atEnd ⟨32, some 32⟩) = false ∧
      RoomReachable 0 (atEnd ⟨32, some 32⟩) ∧ inFatal (atEnd ⟨32, some 32⟩) = false ∧
      live (atEnd ⟨32, some 32⟩) + need 0 ≤ (atEnd ⟨32, some 32⟩).cap ∧
      (atEnd ⟨32, some 32⟩).cap / 2 ≤ live (atEnd ⟨32, some 32⟩) ∧
      admits ⟨32, some 32⟩ (2 * (atEnd ⟨32, some 32⟩).cap) = false) :=
  ⟨⟨legal_wrappedW13, by decide, reachable_W13, by decide, by decide⟩,
    ⟨legal_fullW6, by decide, reachable_W4, by decide, by decide, by decide, by decide⟩,
    ⟨legal_W15, by decide, ⟨0, by decide, by decide⟩, by decide, by decide,
      by decide, by decide⟩,
    legal_W14, by decide, ⟨0, by decide, by decide⟩, by decide, by decide,
    by decide, by decide⟩

/-- W16. -/
theorem unreachable_W16 : ¬ RoomReachable 10 cappedW16 := by
  rintro ⟨k, ha, hk⟩
  have ha : 32 * 2 ^ k ≤ 32 := of_decide_eq_true ha
  have hk : 36 ≤ 32 * 2 ^ k := hk
  omega

theorem witness_WritePastCapMaxIsFatal :
    LegalState cappedW16 ∧ (List.replicate 10 (0x5A : Byte)).length = (10#32).toNat ∧
      inFatal cappedW16 = false ∧ (0#32).toNat ≤ (10#32).toNat ∧ ¬ RoomReachable (10#32).toNat cappedW16 :=
  ⟨legal_cappedW16, by decide, by decide, by decide, unreachable_W16⟩

theorem witness_UnboundedWriteAlwaysStores :
    LegalState unbounded ∧ unbounded.params.capMax = none ∧ ([1, 2] : List Byte).length = (2#32).toNat ∧
      inFatal unbounded = false ∧ (2#32).toNat ≤ (2#32).toNat :=
  ⟨legal_unbounded, rfl, by decide, by decide, by decide⟩

/-- W3 and PR4. -/
theorem witness_WriteWithBadSkip :
    ([1, 2, 3] : List Byte).length = (3#32).toNat ∧ inFatal State.reset = false ∧
      (3#32).toNat < (4#32).toNat := by decide

theorem witness_WriteWithWrongLengthIsIllegal : ([1] : List Byte).length ≠ (2#32).toNat := by decide

/-- W9 stores at the start and W6 at the head, both with `fits`. -/
theorem witness_WriteFrame :
    (∃ t, exec (.write 2#32 0#32 [0x88, 0x99]) emptyAt23 = .next t) ∧
      fits (2#32).toNat emptyAt23 = true ∧ headFit (2#32).toNat emptyAt23 = false ∧
      (∃ t, exec (.write 0#32 0#32 []) State.reset = .next t) ∧
      fits (0#32).toNat State.reset = true ∧ headFit (0#32).toNat State.reset = true :=
  ⟨⟨_, rfl⟩, by decide, by decide, ⟨_, rfl⟩, by decide, by decide⟩

theorem witness_RoomLoopEnds : LegalState wrappedW13 ∧ LegalState cappedW16 :=
  ⟨legal_wrappedW13, legal_cappedW16⟩

theorem witness_CompactionKeepsPackets :
    LegalState wrappedP2 ∧ live wrappedP2 = 18 ∧ LegalState emptyAt23 ∧ live emptyAt23 ≤ 0 :=
  ⟨legal_wrappedP2, by decide, legal_emptyAt23, by decide⟩

theorem witness_EmptyReadIsReported : inFatal emptyAt23 = false ∧ emptyAt23.cnt = 0 := by decide

/-- RR6, which jumps, and RR4, where RD + 8 + len is CAP exactly. -/
theorem witness_ReadFollowsItsSubHeader :
    (inFatal wrappedP2 = false ∧ 0 < wrappedP2.cnt ∧ (2#32).toNat ≤ (10#32).toNat ∧
      wrappedP2.rd + 8 ≤ wrappedP2.cap ∧
      (∀ j < 8, some (storeByte wrappedP2 (wrappedP2.rd + j)) = (be32bytes 10#32 ++ be32bytes 2#32)[j]?) ∧
      wrappedP2.cap < wrappedP2.rd + 8 + (10#32).toNat ∧ 0 + (10#32).toNat ≤ wrappedP2.cap ∧
      ∀ j < 8, some (storeByte wrappedP2 (0 + (2#32).toNat + j)) =
        ([0xB2, 0xB3, 0xB4, 0xB5, 0xB6, 0xB7, 0xB8, 0xB9] : List Byte)[j]?) ∧
    (inFatal fullW6 = false ∧ 0 < fullW6.cnt ∧ (0#32).toNat ≤ (24#32).toNat ∧ fullW6.rd + 8 ≤ fullW6.cap ∧
      (∀ j < 8, some (storeByte fullW6 (fullW6.rd + j)) = (be32bytes 24#32 ++ be32bytes 0#32)[j]?) ∧
      fullW6.rd + 8 + (24#32).toNat = fullW6.cap ∧
      ∀ j < 24, some (storeByte fullW6 (8 + (0#32).toNat + j)) = (List.replicate 24 (0x5A : Byte))[j]?) := by
  decide

theorem witness_ReadReturnsTheOldestPacket :
    LegalState wrappedP2 ∧ inFatal wrappedP2 = false ∧ 0 < wrappedP2.cnt ∧
      LegalState fullW6 ∧ inFatal fullW6 = false ∧ 0 < fullW6.cnt :=
  ⟨legal_wrappedP2, by decide, by decide, legal_fullW6, by decide, by decide⟩

theorem witness_QueryAnswersCountAndErrors :
    Port.P ≠ .H ∧ Port.C ≠ .H ∧ Port.K ≠ .H ∧ State.reset.cnt < 4294967296 := by decide

theorem witness_ClearDropsEveryPacket : inFatal wrappedP2 = false ∧ inFatal fatalW16 = true := by decide

theorem witness_ClearIsIdempotent :
    (∃ t, exec .clear wrappedP2 = .next t) ∧ ∃ t, exec .clear fatalW16 = .next t := ⟨⟨_, rfl⟩, _, rfl⟩

theorem witness_DecodeRejectsWrongSize : goodWindow.length = 16 ∧ 15#32 ≠ 16#32 ∧ 17#32 ≠ 16#32 := by decide

theorem witness_DecodeRejectsWrongMagic : 0x12345678#32 ≠ 0x55AA55AA#32 := by decide

theorem witness_DecodeRejectsWrongChecksum : 0#32 ≠ ~~~6#32 := by decide

theorem witness_HeaderIsValidIff :
    goodWindow.length = 16 ∧ (∃ t, exec (.decode 16#32 goodWindow) fatalW16 = .next t) ∧
      ∃ t, exec (.decode 15#32 goodWindow) fatalW16 = .next t := ⟨by decide, ⟨_, rfl⟩, _, rfl⟩

theorem witness_DecodeWithWrongWindowIsIllegal : (List.replicate 15 (0 : Byte)).length ≠ 16 := by decide

/-- PR2 and RR7. -/
theorem witness_FatalStateAnswersFatal :
    inFatal fatalW16 = true ∧ (Instr.write 1#32 2#32 [1]).wellFormed = true ∧
      Instr.read.wellFormed = true ∧ Instr.clear.wellFormed = true := by decide

/-- The four error codes: RR1, W3, a WRITE of the wrong length and W16; PR1 and PR3 as transactions. -/
theorem witness_ErrorsArePrecise :
    (nextIs (exec .read State.reset) fun t => t.sent.c == [⟨.errEmpty, [], []⟩]) ∧
      (nextIs (exec (.write 3#32 4#32 [1, 2, 3]) State.reset) fun t => t.sent.p == [⟨.errSkip, [], []⟩]) ∧
      (nextIs (exec (.write 2#32 0#32 [1]) State.reset) fun t => t.sent.p == [⟨.errIllegal, [], []⟩]) ∧
      (nextIs (exec (.write 10#32 0#32 (List.replicate 10 0x5A)) cappedW16) fun t =>
        t.sent.p == [⟨.errFatal, [], []⟩]) ∧
      (nextIs (perform .H ⟨9#32, [], []⟩ fatalW16) fun t => t.sent.h == [⟨.errIllegal, [], []⟩]) ∧
      (nextIs (perform .C ⟨2#32, [], []⟩ fatalW16) fun t => t.sent.c == [⟨.errFatal, [], []⟩]) := by decide

theorem witness_ErrorBitsAreSticky :
    (∃ t, exec (.query .P) fatalW16 = .next t) ∧ Instr.query .P ≠ .clear ∧
      fatalW16.err.getLsbD 3 = true := ⟨⟨_, rfl⟩, by decide, by decide⟩

theorem witness_OnlyHardResetLeavesFatal :
    inFatal fatalW16 = true ∧
      (present .K ⟨4#32, [], []⟩ fatalW16).inputs.head? ≠ some .hardReset ∧
      ∃ t, step (present .K ⟨4#32, [], []⟩ fatalW16) = .next t := ⟨by decide, by decide, _, rfl⟩

/-- An OK response (RR6) and an error response (RR1). -/
theorem witness_OneResponseOfItsShape :
    (∃ t, exec .read wrappedP2 = .next t) ∧ (∃ t, exec .read State.reset = .next t) ∧
      ∃ t, exec (.decode 16#32 goodWindow) State.reset = .next t := ⟨⟨_, rfl⟩, ⟨_, rfl⟩, _, rfl⟩

theorem witness_NonWritingCommandsKeepStore :
    (∃ t, exec .clear wrappedP2 = .next t) ∧ (∀ len skip data, Instr.clear ≠ .write len skip data) ∧
      (∃ t, exec .read wrappedP2 = .next t) ∧ ∀ len skip data, Instr.read ≠ .write len skip data :=
  ⟨⟨_, rfl⟩, nofun, ⟨_, rfl⟩, nofun⟩

theorem witness_UnitsAreIndependent :
    (∃ t, exec (.decode 16#32 goodWindow) wrappedP2 = .next t) ∧ ∃ t, exec .read wrappedP2 = .next t :=
  ⟨⟨_, rfl⟩, _, rfl⟩

theorem witness_UnspecifiedBytesDecideNothing :
    LegalState wrappedW13 ∧ ∃ t, exec .read wrappedW13 = .next t := ⟨legal_wrappedW13, _, rfl⟩

theorem witness_DecodeCommutesWithRingCommands :
    goodWindow.length = 16 ∧ Instr.read.port ≠ .H ∧ ∃ t, exec .read wrappedP2 = .next t :=
  ⟨by decide, by decide, _, rfl⟩

/-- W10 grows, W1 does not. -/
theorem witness_CapOnlyDoubles :
    (nextIs (exec (.write 30#32 0#32 (List.replicate 30 0x5A)) State.reset) fun t =>
        regs t == [64, 0, 38, 0, 1, 0]) ∧
      nextIs (exec (.write 0#32 0#32 []) State.reset) fun t => regs t == [32, 0, 8, 0, 1, 0] := by decide

/-- Each case of the conclusion, as 95_test_vectors.md W1, RR6, CL1 and RR1 have it. -/
theorem witness_CountFollowsTheResponses :
    (nextIs (exec (.write 0#32 0#32 []) State.reset) fun t => t.sent.p == [] ++ [⟨.ok, [], []⟩]) ∧
      (nextIs (exec .read wrappedP2) fun t => t.sent.c.length == 1 && t.cnt == 0) ∧
      (nextIs (exec .clear wrappedP2) fun t => t.sent.k == [] ++ [⟨.ok, [], []⟩]) ∧
      (nextIs (exec .read State.reset) fun t => t.sent.c == [] ++ [⟨.errEmpty, [], []⟩]) := by decide

theorem witness_StepKeepsLegalState :
    LegalState busy ∧ (∃ t, step busy = .next t) ∧ LegalState wrappedW13 :=
  ⟨legal_busy, ⟨_, rfl⟩, legal_wrappedW13⟩

theorem witness_LegalStatesNeverStop : LegalState busy ∧ LegalState wrappedP2 := ⟨legal_busy, legal_wrappedP2⟩

theorem witness_CountIsBounded :
    LegalState wrappedP2 ∧ wrappedP2.params.capMax = some 1024 ∧ LegalState unbounded :=
  ⟨legal_wrappedP2, rfl, legal_unbounded⟩

/-- Each case of the conclusion: a WRITE, a READ and a CLEAR answered OK, and a READ answered ERR_EMPTY. -/
theorem witness_QueueFollowsTheResponses :
    LegalState emptyAt23 ∧ LegalState wrappedP2 ∧
      (nextIs (exec (.write 2#32 0#32 [0x88, 0x99]) emptyAt23) fun t => t.sent.p == [] ++ [⟨.ok, [], []⟩]) ∧
      (nextIs (exec .read wrappedP2) fun t =>
        t.sent.c == [] ++ [⟨.ok, [8], [0xB2, 0xB3, 0xB4, 0xB5, 0xB6, 0xB7, 0xB8, 0xB9]⟩]) ∧
      (nextIs (exec .clear wrappedP2) fun t => t.sent.k == [] ++ [⟨.ok, [], []⟩]) ∧
      (nextIs (exec .read emptyAt23) fun t => t.sent.c == [] ++ [⟨.errEmpty, [], []⟩]) :=
  ⟨legal_emptyAt23, legal_wrappedP2, by decide, by decide, by decide, by decide⟩

/-- A length placed at the start (W9), and one that needs growth. -/
theorem witness_WriteThenReadReturnsThePayload :
    LegalState emptyAt23 ∧ inFatal emptyAt23 = false ∧ emptyAt23.cnt = 0 ∧
      ([0x88, 0x99] : List Byte).length = (2#32).toNat ∧ (2#32).toNat ≤ (2#32).toNat ∧
      RoomReachable (2#32).toNat emptyAt23 ∧ RoomReachable (30#32).toNat emptyAt23 :=
  ⟨legal_emptyAt23, by decide, by decide, by decide, by decide, ⟨0, by decide, by decide⟩,
    1, by decide, by decide⟩

/-- An offer on a busy port, an offer on a free one, a port taken, and a free choice. -/
theorem witness_EveryStepKeepsTheAccount :
    (busy.inputs.head? ≠ some .hardReset ∧ ∃ t, step busy = .next t) ∧
      ((bothP6 []).inputs.head? ≠ some .hardReset ∧ ∃ t, step (bothP6 []) = .next t) ∧
      ((present .K ⟨4#32, [], []⟩ fatalW16).inputs.head? ≠ some .hardReset ∧
        ∃ t, step (present .K ⟨4#32, [], []⟩ fatalW16) = .next t) ∧
      (State.inputs { busy with inputs := [] }).head? ≠ some .hardReset ∧
        ∃ t, step { busy with inputs := [] } = .next t :=
  ⟨⟨by decide, _, rfl⟩, ⟨by decide, _, rfl⟩, ⟨by decide, _, rfl⟩, by decide, _, rfl⟩

/-- The consumer polls QUERY for ever while `p` is pending on P and the arbiter takes C each time. -/
def pollRun (p : Option Request) (n : Nat) : State :=
  { State.reset with
    pend := ⟨p, if n % 2 = 1 then some ⟨3#32, [], []⟩ else none, none, none⟩
    sent := ⟨[], List.replicate (n / 2) ⟨.ok, [0#32, 0#32], []⟩, [], []⟩ }

/-- What arrives in `pollRun`: the next QUERY, then the arbiter's choice of C. -/
def pollMore (n : Nat) : List Input :=
  if n % 2 = 0 then [.issue .C ⟨3#32, [], []⟩] else [.take .C]

theorem pollRun_isRun (p : Option Request) : IsRun pollMore (pollRun p) := by
  intro n
  rcases Nat.even_or_odd' n with ⟨k, rfl | rfl⟩
  · have h1 : (2 * k + 1) / 2 = k := by omega
    simp [pollRun, pollMore, step, stepOnce, offer, PerPort.get, PerPort.set, State.reset,
      State.resetWith, h1, Nat.add_mod]
  · have h1 : (2 * k + 1 + 1) / 2 = k + 1 := by omega
    have h2 : (2 * k + 1) / 2 = k := by omega
    have h3 : (2 * k + 1 + 1) % 2 = 0 := by omega
    have h4 : (2 * k + 1) % 2 = 1 := by omega
    simp [pollRun, pollMore, step, stepOnce, performPending, perform, PerPort.get, PerPort.set, State.reset,
      State.resetWith, h1, h2, h3, h4, List.replicate_succ']
    rfl

/-- A fair run in which commands keep arriving for ever. -/
theorem witness_FairRunsAnswerEveryCommand :
    IsRun pollMore (pollRun none) ∧ Fair (pollRun none) ∧ .hardReset ∉ (pollRun none 0).inputs ∧
      ∀ n, .hardReset ∉ pollMore n := by
  refine ⟨pollRun_isRun none, ?_, by decide, fun n => by unfold pollMore; split <;> simp⟩
  intro n port hp
  cases port
  · cases hp
  · refine ⟨n + 1, Nat.lt_succ_self n, ?_⟩
    simp [pollRun, PerPort.get] at hp ⊢
    omega
  · cases hp
  · cases hp

/-- R139: an arbiter that prefers C for ever gives a run, and `Fair` excludes it. -/
theorem test_starvingRunIsNotFair :
    IsRun pollMore (pollRun (some ⟨3#32, [], []⟩)) ∧ ¬ Fair (pollRun (some ⟨3#32, [], []⟩)) := by
  refine ⟨pollRun_isRun _, fun h => ?_⟩
  obtain ⟨m, -, hm⟩ := h 0 .P rfl
  cases hm

theorem witness_EveryIssuedCommandIsAnswered : LegalState busy ∧ .hardReset ∉ busy.inputs :=
  ⟨legal_busy, by decide⟩

end Sys2Proof.Tests
end

/-! Family 00_scope: a step performs its decoded command whole (R3), and the RBU and the HVU write
disjoint registers (R2). -/

namespace Sys2Proof.Machine

/-- The next input names a port with a pending command: that command is performed (60_exceptions.md
R138). -/
theorem step_of_take {s : State} {port : Port} {r : Request} {rest : List Input}
    (hin : s.inputs = .take port :: rest) (hp : s.pend.get port = some r) :
    step s = perform port r { s with inputs := rest } := by
  simp only [step, stepOnce, hin, performPending, hp]

/-- Settles O6: the step performs the named port's command, and performing it is `exec` of what the
decoder names. -/
theorem stepRunsTheDecodedCommand : Obligations.StepRunsTheDecodedCommand := by
  intro s port r rest i hin hp hd
  rw [step_of_take hin hp, perform_of_decode _ hd]

/-! ### The HVU registers under RBU commands -/

@[simp] theorem hdrWords_respondOk (port : Port) (rargs : List Word) (rdata : List Byte) (s : State) :
    hdrWords (respondOk port rargs rdata s) = hdrWords s := rfl

theorem makeRoom_hdrWords {len : Nat} {s s' : State} (h : makeRoom len s = .ready s') :
    hdrWords s' = hdrWords s := by
  obtain ⟨-, c, m, f, r, w, rfl⟩ := roomLoop_ready h
  rfl

theorem placePacket_hdrWords {len skip : Word} {data : List Byte} {s s' : State}
    (h : placePacket len skip data s = .ok s') : hdrWords s' = hdrWords s := by
  obtain ⟨m, w, t, rfl⟩ := placePacket_frame h
  rfl

theorem execWrite_hdrWords {len skip : Word} {data : List Byte} {s t : State}
    (h : execWrite len skip data s = .next t) : hdrWords t = hdrWords s := by
  obtain ⟨-, rfl⟩ | ⟨-, -, rfl⟩ | ⟨-, -, -, rfl⟩ | ⟨-, -, -, -, rfl⟩ |
    ⟨-, -, -, s1, s2, hroom, hplace, rfl⟩ := execWrite_cases h
  case inr.inr.inr.inr =>
    rw [hdrWords_respondOk, placePacket_hdrWords hplace, makeRoom_hdrWords hroom]
  all_goals rfl

theorem execRead_hdrWords {s t : State} (h : execRead s = .next t) : hdrWords t = hdrWords s := by
  obtain ⟨-, rfl⟩ | ⟨-, -, rfl⟩ | ⟨-, -, len, skip, view, -, -, -, rfl⟩ := execRead_cases h <;> rfl

theorem execQuery_hdrWords {port : Port} {s t : State} (h : execQuery port s = .next t) :
    hdrWords t = hdrWords s := by
  obtain ⟨-, rfl⟩ | ⟨-, rfl⟩ := execQuery_cases h <;> rfl

theorem execClear_hdrWords {s t : State} (h : execClear s = .next t) : hdrWords t = hdrWords s := by
  obtain ⟨-, rfl⟩ | ⟨-, rfl⟩ := execClear_cases h <;> rfl

/-- The RBU writes no HVU register (00_scope.md R2). -/
theorem exec_hdrWords {i : Instr} {s t : State} (hport : i.port ≠ .H) (h : exec i s = .next t) :
    hdrWords t = hdrWords s := by
  cases i with
  | write len skip data => exact execWrite_hdrWords h
  | read => exact execRead_hdrWords h
  | query port => exact execQuery_hdrWords h
  | clear => exact execClear_hdrWords h
  | decode size win => exact absurd rfl hport

/-! ### The ring under commands of port H -/

/-- Everything a command of port H can come to: a well-formed one is a DECODE and answers the HVU
registers, any other raises ILLEGAL (00_scope.md R2, 30_encoding.md R72). -/
theorem exec_cases_of_port_H {i : Instr} {s t : State} (hport : i.port = .H) (h : exec i s = .next t) :
    (i.wellFormed = true ∧ ∃ size win,
      t = respondOk .H (hdrWords (validate size win s)) [] (validate size win s)) ∨
    (i.wellFormed = false ∧ t = raiseErr .illegal .H s) := by
  cases i with
  | write len skip data => cases hport
  | read => cases hport
  | query port =>
    obtain rfl : port = .H := hport
    obtain ⟨hne, -⟩ | ⟨-, rfl⟩ := execQuery_cases h
    · exact absurd rfl hne
    · exact .inr ⟨rfl, rfl⟩
  | clear => cases hport
  | decode size win =>
    obtain ⟨hlen, rfl⟩ | ⟨hlen, rfl⟩ := execDecode_cases h
    · exact .inl ⟨by simpa [Instr.wellFormed] using hlen, size, win, rfl⟩
    · exact .inr ⟨by simpa [Instr.wellFormed] using hlen, rfl⟩

/-- Settles O40: the RBU side is `exec_hdrWords`; on port H a command is a DECODE, whose checks keep
the ring and ERR, or is illegal, which writes ERR only. -/
theorem unitsAreIndependent : Obligations.UnitsAreIndependent := by
  intro s t i h
  refine ⟨fun hport => ?_, fun hport => ?_⟩
  · simpa [hdrWords] using exec_hdrWords hport h
  · obtain ⟨-, size, win, rfl⟩ | ⟨hwf, rfl⟩ := exec_cases_of_port_H hport h
    · simp [respondOk]
    · simp [hwf]

end Sys2Proof.Machine

/-! Family 10_state: the invariants of the ring, the store, ERR and the HVU registers, and the packet queue
(10_state.md R19 to R27, R33 to R38). -/

namespace Sys2Proof.Machine

/-! ### What a command can come to -/

/-- Everything a command that goes on can have answered (`r`) and left (`t`): an error raised, ERR_FATAL in
the FATAL state, or its own OK case. When each error is raised is said by `execWrite_cases` and the other
four. -/
inductive ExecAnswer (s : State) : Instr → Response → State → Prop
  | raised (i : Instr) (e : ErrBit) : ExecAnswer s i ⟨e.code, [], []⟩ (raiseErr e i.port s)
  | fatal (i : Instr) (hf : inFatal s = true) :
      ExecAnswer s i ⟨.errFatal, [], []⟩ (respondErr i.port .errFatal s)
  | write {len skip : Word} {data : List Byte} {s1 s2 : State} (hf : inFatal s = false)
      (hlen : data.length = len.toNat) (hskip : skip.toNat ≤ len.toNat)
      (hroom : makeRoom len.toNat s = .ready s1)
      (hplace : placePacket len skip data s1 = .ok s2) :
      ExecAnswer s (.write len skip data) ⟨.ok, [], []⟩ (respondOk .P [] [] s2)
  | read {len skip : Word} {view : List Byte} (hf : inFatal s = false) (hcnt : 0 < s.cnt)
      (hsub : readSubHeader s.rd s = .ok (len, skip)) (hskip : skip.toNat ≤ len.toNat)
      (hview : memRead (payloadStart s.rd len.toNat s + skip.toNat) (len.toNat - skip.toNat) s = .ok view) :
      ExecAnswer s .read ⟨.ok, [len - skip], view⟩ (respondOk .C [len - skip] view
        { s with rd := payloadStart s.rd len.toNat s + len.toNat, cnt := s.cnt - 1 })
  | query {port : Port} (hport : port ≠ .H) :
      ExecAnswer s (.query port) ⟨.ok, [cntWord s.cnt, s.err], []⟩
        (respondOk port [cntWord s.cnt, s.err] [] s)
  | clear (hf : inFatal s = false) :
      ExecAnswer s .clear ⟨.ok, [], []⟩
        (respondOk .K [] [] { s with cnt := 0, rd := 0, wr := 0, err := errClear s.err })
  | decode {size : Word} {win : List Byte} (hwin : win.length = 16) :
      ExecAnswer s (.decode size win) ⟨.ok, hdrWords (validate size win s), []⟩
        (respondOk .H (hdrWords (validate size win s)) [] (validate size win s))

theorem exec_answer {i : Instr} {s t : State} (h : exec i s = .next t) : ∃ r, ExecAnswer s i r t := by
  cases i with
  | write len skip data =>
    obtain ⟨-, rfl⟩ | ⟨-, hf, rfl⟩ | ⟨-, -, -, rfl⟩ | ⟨-, -, -, -, rfl⟩ |
      ⟨hlen, hf, hskip, s1, s2, hroom, hplace, rfl⟩ := execWrite_cases h
    · exact ⟨_, .raised _ .illegal⟩
    · exact ⟨_, .fatal _ hf⟩
    · exact ⟨_, .raised _ .badSkip⟩
    · exact ⟨_, .raised _ .fatal⟩
    · exact ⟨_, .write hf hlen hskip hroom hplace⟩
  | read =>
    obtain ⟨hf, rfl⟩ | ⟨-, -, rfl⟩ | ⟨hf, hcnt, len, skip, view, hsub, hskip, hview, rfl⟩ :=
      execRead_cases h
    · exact ⟨_, .fatal _ hf⟩
    · exact ⟨_, .raised _ .emptyRead⟩
    · exact ⟨_, .read hf hcnt hsub hskip hview⟩
  | query port =>
    obtain ⟨hport, rfl⟩ | ⟨rfl, rfl⟩ := execQuery_cases h
    · exact ⟨_, .query hport⟩
    · exact ⟨_, .raised _ .illegal⟩
  | clear =>
    obtain ⟨hf, rfl⟩ | ⟨hf, rfl⟩ := execClear_cases h
    · exact ⟨_, .fatal _ hf⟩
    · exact ⟨_, .clear hf⟩
  | decode size win =>
    obtain ⟨hwin, rfl⟩ | ⟨-, rfl⟩ := execDecode_cases h
    · exact ⟨_, .decode hwin⟩
    · exact ⟨_, .raised _ .illegal⟩

@[simp] theorem ErrBit.code_ne_ok (e : ErrBit) : e.code ≠ .ok := by cases e <;> decide

/-- What a WRITE answered OK can have changed: the ring and STORE, CNT by one; nothing else. -/
theorem writeOk_frame {n : Nat} {len skip : Word} {data : List Byte} {s s1 s2 : State}
    (hroom : makeRoom n s = .ready s1) (hplace : placePacket len skip data s1 = .ok s2) :
    ∃ c r w b m f, s2 = { s with
      cap := c, rd := r, wr := w, tb := b, cnt := s.cnt + 1, store := m, fills := f } := by
  obtain ⟨-, c, m, f, r, w, rfl⟩ := roomLoop_ready hroom
  obtain ⟨m', w', b, rfl⟩ := placePacket_frame hplace
  exact ⟨c, r, w', b, m', f, rfl⟩

/-- A command's response is the one its port receives (30_encoding.md R57). -/
theorem ExecAnswer.sent {i : Instr} {s t : State} {r : Response} (h : ExecAnswer s i r t) :
    t.sent = s.sent.set i.port (s.sent.get i.port ++ [r]) := by
  cases h with
  | write hf hlen hskip hroom hplace =>
    obtain ⟨c, r, w, b, m, f, rfl⟩ := writeOk_frame hroom hplace
    rfl
  | decode hwin => simp [respondOk, Instr.port]
  | _ => rfl

theorem exec_answer_of_sent {i : Instr} {s t : State} {r : Response} (h : exec i s = .next t)
    (hr : t.sent.get i.port = s.sent.get i.port ++ [r]) : ExecAnswer s i r t := by
  obtain ⟨r', h'⟩ := exec_answer h
  have hrr : r' = r := by simpa [h'.sent] using hr
  exact hrr ▸ h'

/-! ### ERR -/

/-- What a command can do to ERR (10_state.md R22): keep it, set a bit, or, by CLEAR, clear bits 0 to 2. -/
theorem exec_err {i : Instr} {s t : State} (h : exec i s = .next t) :
    t.err = s.err ∨ (∃ e, t.err = errSet e s.err) ∨ (i = .clear ∧ t.err = errClear s.err) := by
  obtain ⟨r, h⟩ := exec_answer h
  cases h with
  | raised i e => exact .inr (.inl ⟨e, rfl⟩)
  | clear hf => exact .inr (.inr ⟨rfl, rfl⟩)
  | write hf hlen hskip hroom hplace =>
    obtain ⟨c, r, w, b, m, f, rfl⟩ := writeOk_frame hroom hplace
    exact .inl rfl
  | decode hwin => exact .inl (by simp [respondOk])
  | _ => exact .inl rfl

/-- Settles O36: outside CLEAR, ERR is kept or has a bit joined to it (`exec_err`). -/
theorem errorBitsAreSticky : Obligations.ErrorBitsAreSticky := by
  intro s t i b h hclear hb
  obtain herr | ⟨e, herr⟩ | ⟨rfl, -⟩ := exec_err h
  · rw [herr, hb]
  · rw [herr, errSet, BitVec.getLsbD_or, hb, Bool.true_or]
  · exact absurd rfl hclear

theorem errSet_lt (e : ErrBit) {err : Word} (h : err.toNat < 16) : (errSet e err).toNat < 16 := by
  rw [errSet, BitVec.toNat_or]
  exact Nat.or_lt_two_pow (n := 4) h (by cases e <;> decide)

theorem errClear_le (err : Word) : (errClear err).toNat ≤ err.toNat := by
  rw [errClear, BitVec.toNat_and]
  exact Nat.and_le_left

/-- Every command keeps ERR's reserved bits 0 (10_state.md R22). -/
theorem exec_errLegal {i : Instr} {s t : State} (hs : ErrLegal s) (h : exec i s = .next t) : ErrLegal t := by
  unfold ErrLegal at hs ⊢
  obtain herr | ⟨e, herr⟩ | ⟨-, herr⟩ := exec_err h <;> rw [herr]
  · exact hs
  · exact errSet_lt e hs
  · exact lt_of_le_of_lt (errClear_le _) hs

/-! ### The HVU result registers -/

theorem HdrLegal.congr {s t : State} (hs : HdrLegal s) (h : hdrWords t = hdrWords s) : HdrLegal t := by
  simp only [hdrWords, List.cons.injEq, and_true] at h
  obtain ⟨hres, hlen, htype, hinfo⟩ := h
  cases hs with
  | noDecode h1 h2 h3 h4 =>
    exact .noDecode (hres.trans h1) (hlen.trans h2) (htype.trans h3) (hinfo.trans h4)
  | valid h1 h2 => exact .valid (by rw [hres, h1, htype]) (hinfo.trans h2)
  | failed h1 h2 h3 => exact .failed (by rwa [hres]) (hlen.trans h2) (htype.trans h3)

/-- DECODE's checks end in one of the outcomes of 10_state.md R24 and R25, whatever the state before. -/
theorem validate_hdrLegal (size : Word) (win : List Byte) (s : State) : HdrLegal (validate size win s) := by
  unfold validate
  split_ifs
  · exact .failed (.inl rfl) rfl rfl
  · exact .failed (.inr (.inr rfl)) rfl rfl
  · exact .failed (.inr (.inl rfl)) rfl rfl
  · refine .valid ?_ rfl
    by_cases hvideo : winField win 8 = 6#32 <;>
      simp [hdrPass, hvideo, hdrResultWord, HdrKind.code, HdrCause.code]

/-- Every command leaves the HVU registers at one of their outcomes (10_state.md R24, R25). -/
theorem exec_hdrLegal {i : Instr} {s t : State} (hs : HdrLegal s) (h : exec i s = .next t) : HdrLegal t := by
  by_cases hport : i.port = .H
  · obtain ⟨-, size, win, rfl⟩ | ⟨-, rfl⟩ := exec_cases_of_port_H hport h
    · exact (validate_hdrLegal size win s).congr rfl
    · exact hs.congr rfl
  · exact hs.congr (exec_hdrWords hport h)

/-! ### CNT -/

/-- Settles O43, one case per answer. -/
theorem countFollowsTheResponses : Obligations.CountFollowsTheResponses := by
  intro s t i r h hr
  cases exec_answer_of_sent h hr with
  | raised i e =>
    refine ⟨?_, fun _ hok => absurd hok e.code_ne_ok⟩
    cases i <;> cases e <;> rfl
  | fatal i hf =>
    refine ⟨?_, fun _ hok => by cases hok⟩
    cases i <;> rfl
  | write hf hlen hskip hroom hplace =>
    obtain ⟨c, r, w, b, m, f, rfl⟩ := writeOk_frame hroom hplace
    exact ⟨rfl, nofun⟩
  | read hf hcnt hsub hskip hview => exact ⟨rfl, fun _ _ => hcnt⟩
  | query hport => exact ⟨rfl, nofun⟩
  | clear hf => exact ⟨rfl, nofun⟩
  | decode hwin => exact ⟨by simp [respondOk], nofun⟩

/-! ### CAP -/

/-- What every iteration of the room loop keeps, the whole loop keeps. -/
theorem roomLoop_preserves {P : State → Prop} {len : Nat}
    (hstep : ∀ u u', P u → roomStep len u = .ready u' → P u') {fuel : Nat} {s s' : State} (hs : P s)
    (h : roomLoop len fuel s = .ready s') : P s' := by
  induction fuel generalizing s with
  | zero =>
    rw [roomLoop] at h
    split_ifs at h
    cases h
    exact hs
  | succ fuel ih =>
    rw [roomLoop] at h
    split_ifs at h
    · cases h
      exact hs
    · cases hroom : roomStep len s with
      | ready s1 =>
        rw [hroom] at h
        exact ih (hstep s s1 hs hroom) h
      | overCap =>
        rw [hroom] at h
        cases h
      | stopped f =>
        rw [hroom] at h
        cases h

/-- `u` is `s` with CAP doubled some number of times, to an admitted value when it was doubled at all
(10_state.md R19). -/
def GrownFrom (s u : State) : Prop :=
  u.params = s.params ∧ ∃ k, u.cap = s.cap * 2 ^ k ∧ (k ≠ 0 → admits s.params u.cap = true)

theorem GrownFrom.refl (s : State) : GrownFrom s s := ⟨rfl, 0, by simp, by simp⟩

theorem GrownFrom.roomStep {len : Nat} {s u u' : State} (h : GrownFrom s u)
    (hs : roomStep len u = .ready u') : GrownFrom s u' := by
  obtain ⟨hp, k, hk, hadm⟩ := h
  obtain ⟨c, hc, hcap⟩ := roomStep_ready hs
  obtain ⟨v, -, -, rfl⟩ := (compact_eq_ok ..).mp hc
  obtain ⟨rfl, -⟩ | ⟨rfl, -, hgrow⟩ := hcap
  · exact ⟨hp, k, hk, hadm⟩
  · exact ⟨hp, k + 1, by rw [hk, pow_succ]; ring, fun _ => hp ▸ hgrow⟩

/-- Settles O42: only a WRITE answered OK runs the room loop, whose iterations keep `GrownFrom`. -/
theorem capOnlyDoubles : Obligations.CapOnlyDoubles := by
  intro s t i h
  obtain ⟨r, h⟩ := exec_answer h
  cases h with
  | write hf hlen hskip hroom hplace =>
    obtain ⟨-, k, hk, hadm⟩ :=
      roomLoop_preserves (fun _ _ => GrownFrom.roomStep) (GrownFrom.refl s) hroom
    obtain ⟨m, w, b, rfl⟩ := placePacket_frame hplace
    exact ⟨k, hk, fun hk0 => ⟨⟨_, _, _, rfl⟩, hadm hk0⟩⟩
  | decode hwin => exact ⟨0, by simp [respondOk], by simp⟩
  | _ => exact ⟨0, (Nat.mul_one _).symm, by simp⟩

/-! ### The level outputs -/

theorem nonempty_iff (s : State) : nonempty s = true ↔ s.cnt ≠ 0 := by simp [nonempty]

theorem empty_iff (s : State) : empty s = true ↔ s.cnt = 0 := by simp [empty]

/-- Settles O44: the flags compare CNT and ERR with 0 and show bits of ERR and HDR_RESULT, and hard reset
zeroes all three registers. -/
theorem levelOutputsFollowState : Obligations.LevelOutputsFollowState :=
  ⟨fun s => ⟨nonempty_iff s, empty_iff s, Iff.rfl, nonempty_iff s, by simp [errO], Iff.rfl⟩,
    fun _ => ⟨rfl, rfl, by simp [fatalO, inFatal, errBit]⟩⟩

/-! ### The ring of a legal state -/

theorem wrapped_iff (s : State) : wrapped s = true ↔ 0 < s.cnt ∧ s.wr ≤ s.rd := by simp [wrapped]

/-- Two states with the same ring registers and STORE. -/
structure SameRing (s t : State) : Prop where
  cap : t.cap = s.cap
  rd : t.rd = s.rd
  wr : t.wr = s.wr
  tb : t.tb = s.tb
  cnt : t.cnt = s.cnt
  store : t.store = s.store

theorem SameRing.wrapped {s t : State} (h : SameRing s t) : wrapped t = wrapped s := by
  simp only [Machine.wrapped, h.cnt, h.wr, h.rd]

theorem SameRing.holds {s t : State} (h : SameRing s t) {a : Nat} {v : List Byte} (hv : Holds s a v) :
    Holds t a v :=
  hv.congr h.cap.ge fun _ _ _ => by rw [h.store]

theorem Ring.congr {s t : State} {ps : List Packet} (hs : Ring s ps) (h : SameRing s t) : Ring t ps := by
  cases hs with
  | straight hw hcnt hps hold hwr =>
    refine .straight (h.wrapped.trans hw) (h.cnt.trans hcnt) hps ?_ (by rw [h.wr, h.rd, hwr])
    rw [h.rd]
    exact h.holds hold
  | around pre k post hsplit hw hcnt hps tail htb hjump head hwr =>
    refine .around pre k post hsplit (h.wrapped.trans hw) (h.cnt.trans hcnt) hps ?_
      (by rw [h.tb, h.rd, htb]) (by rwa [h.cap, h.tb]) (h.holds head) (h.wr.trans hwr)
    rw [h.rd]
    exact h.holds tail

theorem Ringed.congr {s t : State} {ps : List Packet} (hs : Ringed s ps) (h : SameRing s t) :
    Ringed t ps where
  ring := hs.ring.congr h
  wr_le := by rw [h.wr, h.cap]; exact hs.wr_le
  rd_le := by rw [h.rd, h.cap]; exact hs.rd_le
  tb := by rw [h.wrapped, h.rd, h.tb, h.cap]; exact hs.tb
  empty := by rw [h.cnt, h.rd, h.wr]; exact hs.empty

/-- A run of packets from RD to WR is an unwrapped ring within its bounds. -/
theorem Ringed.of_run {s : State} {ps : List Packet} (hcnt : s.cnt = ps.length)
    (hps : ∀ p ∈ ps, p.Stored) (hold : Holds s s.rd (flat ps)) (hwr : s.wr = s.rd + (flat ps).length) :
    Ringed s ps := by
  have hge := length_flat_ge ps
  have hin := hold.1
  have hw : Machine.wrapped s = false := by
    rw [Bool.eq_false_iff, ne_eq, wrapped_iff]
    omega
  refine ⟨.straight hw hcnt hps hold hwr, by omega, by omega, by simp [hw], fun h0 => ?_⟩
  have hnil : ps = [] := List.length_eq_zero_iff.mp (hcnt.symm.trans h0)
  simp [hwr, hnil]

/-- The part of a legal state that the RBU keeps, with the packets its ring holds. -/
structure RingLegal (s : State) (ps : List Packet) : Prop where
  params : s.params.Legal
  grown : ∃ k, s.cap = s.params.initCapacity * 2 ^ k
  admitted : admits s.params s.cap = true
  ringed : Ringed s ps
  store : StoreLegal s

theorem LegalState.ringLegal {s : State} (h : LegalState s) : ∃ ps, RingLegal s ps ∧ pkts s = some ps := by
  obtain ⟨ps, hring, hpkts⟩ := h.ringed
  exact ⟨ps, ⟨h.params, h.bounds.cap_is_grown, h.bounds.cap_admitted, hring, h.store⟩, hpkts⟩

theorem RingLegal.pkts {s : State} {ps : List Packet} (h : RingLegal s ps) : pkts s = some ps :=
  h.ringed.ring.layout.2

theorem RingLegal.legalState {s : State} {ps : List Packet} (h : RingLegal s ps) (herr : ErrLegal s)
    (hhdr : HdrLegal s) : LegalState s where
  params := h.params
  bounds := ⟨h.grown, h.admitted, h.ringed.rd_le, h.ringed.wr_le, h.ringed.tb⟩
  empty := h.ringed.empty
  layout := h.ringed.ring.layout.1
  store := h.store
  err := herr
  hdr := hhdr

theorem RingLegal.congr {s t : State} {ps : List Packet} (hs : RingLegal s ps) (h : SameRing s t)
    (hp : t.params = s.params) : RingLegal t ps where
  params := by rw [hp]; exact hs.params
  grown := by rw [hp, h.cap]; exact hs.grown
  admitted := by rw [hp, h.cap]; exact hs.admitted
  ringed := hs.ringed.congr h
  store := ⟨by rw [h.store]; exact hs.store.wf, by rw [h.store, h.cap]; exact hs.store.inside⟩

/-- Pending commands, responses, inputs and draws of the arbiter are no part of legality. -/
theorem LegalState.withOutside {s : State} (h : LegalState s) (pend : PerPort (Option Request))
    (sent : PerPort (List Response)) (inputs : List Input) (draws : Nat) :
    LegalState { s with pend := pend, sent := sent, inputs := inputs, draws := draws } := by
  obtain ⟨ps, hring, -⟩ := h.ringLegal
  refine RingLegal.legalState (ps := ps) ?_ h.err (h.hdr.congr rfl)
  exact hring.congr ⟨rfl, rfl, rfl, rfl, rfl, rfl⟩ rfl

/-- Settles O48: each live packet has its 8-byte sub-header, the live bytes fit the store, and CAP is
admitted. -/
theorem countIsBounded : Obligations.CountIsBounded := by
  intro s hs
  obtain ⟨ps, hring, -⟩ := hs.ringLegal
  have hcnt : 8 * s.cnt ≤ live s := by
    rw [hring.ringed.ring.cnt_eq, hring.ringed.ring.liveBytes.2]
    exact length_flat_ge ps
  have hlive : live s ≤ s.cap := hring.ringed.live_le
  refine ⟨hcnt, hlive, fun m hm => ?_⟩
  have hcap : s.cap ≤ m := by simpa [admits, hm] using hring.admitted
  have hmax : m ≤ 4294967296 := hring.params.max_le m hm
  omega

/-! ### STORE -/

theorem StoreLegal.setBytes {s : State} (h : StoreLegal s) {a : Nat} {v : List Byte}
    (hin : a + v.length ≤ s.cap) : StoreLegal { s with store := s.store.setBytes a v } where
  wf := Memory.wf_setBytes v s.store h.wf a
  inside x hx := by
    show x.1 < s.cap
    obtain ⟨-, hlt⟩ | hmem := Memory.mem_setBytes v s.store a x hx
    · omega
    · exact h.inside x hmem

/-! ### WRITE: the room loop and the placement keep the ring -/

/-- What a compaction of a legal ring leaves is one more `Compacted` store. -/
theorem RingLegal.compact_eq {s s' : State} {ps : List Packet} {c : Nat} (h : RingLegal s ps)
    (hc : live s ≤ c) (hs : compact c s = .ok s') : s' = Compacted s ps c (s.fills + 1) := by
  rw [(h.ringed.ring.compacted c hc).1] at hs
  cases hs
  rfl

theorem RingLegal.compacted {s : State} {ps : List Packet} {c : Nat} (h : RingLegal s ps)
    (hc : live s ≤ c) (hgrown : ∃ k, c = s.params.initCapacity * 2 ^ k)
    (hadm : admits s.params c = true) : RingLegal (Compacted s ps c (s.fills + 1)) ps := by
  obtain ⟨-, hw, hring⟩ := h.ringed.ring.compacted c hc
  have hringed : Ringed (Compacted s ps c (s.fills + 1)) ps := by
    cases hring with
    | straight hw hcnt hps hold hwr => exact .of_run hcnt hps hold hwr
    | around pre k post hsplit hw' => exact absurd (hw.symm.trans hw') (by decide)
  refine ⟨h.params, hgrown, hadm, hringed, Memory.wf_ofBytes _ 0, fun x hx => ?_⟩
  have hin := (Memory.mem_ofBytes _ 0 x hx).2
  have hwr : (flat ps).length ≤ c := hringed.wr_le
  show x.1 < c
  omega

/-- An iteration of the room loop keeps the packets (40_ring_write.md R87). -/
theorem RingLegal.roomStep {len : Nat} {s s' : State} {ps : List Packet} (h : RingLegal s ps)
    (hs : roomStep len s = .ready s') : RingLegal s' ps := by
  obtain ⟨c, hc, hcap⟩ := roomStep_ready hs
  have hlive := h.ringed.live_le
  obtain ⟨rfl, -⟩ | ⟨rfl, -, hadm⟩ := hcap
  · rw [h.compact_eq hlive hc]
    exact h.compacted hlive h.grown h.admitted
  · rw [h.compact_eq (by omega) hc]
    obtain ⟨k, hk⟩ := h.grown
    exact h.compacted (by omega) ⟨k + 1, by rw [hk, pow_succ]; ring⟩ hadm

theorem RingLegal.roomLoop {len fuel : Nat} {s s' : State} {ps : List Packet} (h : RingLegal s ps)
    (hs : roomLoop len fuel s = .ready s') : RingLegal s' ps :=
  roomLoop_preserves (P := (RingLegal · ps)) (fun _ _ => RingLegal.roomStep) h hs

theorem fits_iff (len : Nat) (s : State) : fits len s = true ↔
    8 < spaceAtHead s ∧ (len + 8 ≤ spaceAtHead s ∨ len + 8 ≤ spaceAtStart s) := by
  simp [fits]

theorem Ringed.wr_add_spaceAtHead_le {s : State} {ps : List Packet} (h : Ringed s ps) :
    s.wr + spaceAtHead s ≤ s.cap := by
  have hwr := h.wr_le
  have hrd := h.rd_le
  unfold spaceAtHead
  split_ifs with hw
  · have hle := ((wrapped_iff s).mp hw).2
    omega
  · omega

theorem Ringed.spaceAtStart_le {s : State} {ps : List Packet} (h : Ringed s ps) :
    spaceAtStart s ≤ s.cap := by
  have hrd := h.rd_le
  unfold spaceAtStart
  split_ifs <;> omega

/-- The state a placed packet leaves: at the head where it fits there, with its payload at offset 0
otherwise (40_ring_write.md R79, R80, R89, R90). -/
def placed (len skip : Word) (data : List Byte) (s : State) : State :=
  if headFit len.toNat s then { s with
    store := (s.store.setBytes s.wr (subHeader len skip)).setBytes (s.wr + 8) data
    wr := s.wr + 8 + len.toNat
    cnt := s.cnt + 1 }
  else { s with
    store := (s.store.setBytes s.wr (subHeader len skip)).setBytes 0 data
    wr := len.toNat
    tb := s.wr + 8
    cnt := s.cnt + 1 }

theorem placed_of_headFit {len skip : Word} {data : List Byte} {s : State}
    (h : len.toNat + 8 ≤ spaceAtHead s) : placed len skip data s = { s with
      store := (s.store.setBytes s.wr (subHeader len skip)).setBytes (s.wr + 8) data
      wr := s.wr + 8 + len.toNat
      cnt := s.cnt + 1 } :=
  if_pos (decide_eq_true h)

theorem placed_of_not_headFit {len skip : Word} {data : List Byte} {s : State}
    (h : spaceAtHead s < len.toNat + 8) : placed len skip data s = { s with
      store := (s.store.setBytes s.wr (subHeader len skip)).setBytes 0 data
      wr := len.toNat
      tb := s.wr + 8
      cnt := s.cnt + 1 } :=
  if_neg (by simpa [headFit] using h)

/-- Where a packet fits, no access of its placement leaves the store. -/
theorem Ringed.placePacket_eq {len skip : Word} {data : List Byte} {s : State} {ps : List Packet}
    (h : Ringed s ps) (hlen : data.length = len.toNat) (hfits : fits len.toNat s = true) :
    placePacket len skip data s = .ok (placed len skip data s) := by
  obtain ⟨hspace, hroom⟩ := (fits_iff ..).mp hfits
  have hhead := h.wr_add_spaceAtHead_le
  have hstart := h.spaceAtStart_le
  by_cases hfit : len.toNat + 8 ≤ spaceAtHead s
  · rw [placed_of_headFit hfit, placePacket_head len skip data s hlen (decide_eq_true hfit) (by omega)]
  · rw [placed_of_not_headFit (by omega),
      placePacket_start len skip data s hlen (decide_eq_false hfit) (by omega) (by omega)]

/-- Where a packet fits, placing it keeps the bounds and STORE's form and appends the packet
(40_ring_write.md R80, R89, R90). -/
theorem RingLegal.placed {len skip : Word} {data : List Byte} {s : State} {ps : List Packet}
    (h : RingLegal s ps) (hlen : data.length = len.toNat) (hskip : skip.toNat ≤ len.toNat)
    (hfits : fits len.toNat s = true) :
    RingLegal (placed len skip data s) (ps ++ [⟨len, skip, data⟩]) := by
  obtain ⟨hspace, hroom⟩ := (fits_iff ..).mp hfits
  have hhead := h.ringed.wr_add_spaceAtHead_le
  have hstart := h.ringed.spaceAtStart_le
  have hsub : StoreLegal { s with store := s.store.setBytes s.wr (subHeader len skip) } :=
    h.store.setBytes (by simp; omega)
  by_cases hfit : len.toNat + 8 ≤ spaceAtHead s
  · rw [placed_of_headFit hfit]
    have hstore := hsub.setBytes (a := s.wr + 8) (v := data) (by show _ ≤ s.cap; omega)
    exact ⟨h.params, h.grown, h.admitted,
      h.ringed.placedAtHead len skip data hlen hskip hspace hfit _ rfl, hstore.wf, hstore.inside⟩
  · rw [placed_of_not_headFit (by omega)]
    have hstore := hsub.setBytes (a := 0) (v := data) (by show _ ≤ s.cap; omega)
    exact ⟨h.params, h.grown, h.admitted,
      h.ringed.placedAtStart len skip data hlen hskip hspace (by omega) (by omega) _ rfl,
      hstore.wf, hstore.inside⟩

/-! ### READ: the first packet of the ring -/

/-- The ring registers after a READ of packet `p` (41_ring_read.md R95). -/
def afterRead (p : Packet) (s : State) : State :=
  { s with rd := payloadStart s.rd p.len.toNat s + p.len.toNat, cnt := s.cnt - 1 }

theorem Holds.drop {s : State} {a : Nat} {v : List Byte} (h : Holds s a v) {n : Nat} (hn : n ≤ v.length) :
    Holds s (a + n) (v.drop n) := by
  rw [← List.take_append_drop n v, holds_append, List.length_take, Nat.min_eq_left hn] at h
  exact h.2

/-- The payload of a sub-header that ends inside the store starts right after it, or at offset 0 when it
would pass CAP. -/
theorem payloadStart_of_le {h len : Nat} {s : State} (hin : h + 8 + len ≤ s.cap) :
    payloadStart h len s = h + 8 :=
  if_neg (Nat.not_lt.mpr hin)

theorem payloadStart_of_lt {h len : Nat} {s : State} (hout : s.cap < h + 8 + len) :
    payloadStart h len s = 0 :=
  if_pos hout

/-- The first packet of a ring: its sub-header is at RD, its payload where READ looks for it
(10_state.md R35, 41_ring_read.md R96). -/
theorem Ring.first {s : State} {p : Packet} {ps : List Packet} (h : Ring s (p :: ps)) :
    Holds s s.rd (subHeader p.len p.skip) ∧ Holds s (payloadStart s.rd p.len.toNat s) p.data := by
  have hp := (h.stored p (by simp)).length
  have held : ∀ {rest : List Byte}, Holds s s.rd (p.bytes ++ rest) →
      Holds s s.rd (subHeader p.len p.skip) ∧ Holds s (payloadStart s.rd p.len.toNat s) p.data := by
    intro rest hv
    have hb := ((holds_append ..).mp hv).1
    rw [Packet.bytes, holds_append, length_subHeader] at hb
    obtain ⟨hsub, hdata⟩ := hb
    rw [payloadStart_of_le (by have := hdata.1; omega)]
    exact ⟨hsub, hdata⟩
  cases h with
  | straight hw hcnt hps hold hwr => exact held hold
  | around pre k post hsplit hw hcnt hps tail htb hjump head hwr =>
    cases pre with
    | nil =>
      obtain ⟨rfl, rfl⟩ : p = k ∧ ps = post := by simpa using hsplit
      simp only [flat_nil, List.nil_append, List.length_nil] at tail htb
      rw [payloadStart_of_lt (by omega)]
      exact ⟨tail, ((holds_append ..).mp head).1⟩
    | cons q pre =>
      obtain ⟨rfl, -⟩ : p = q ∧ ps = pre ++ k :: post := by simpa using hsplit
      rw [flat_cons, List.append_assoc] at tail
      exact held tail

/-- READ takes the first packet off the ring (10_state.md R38, 41_ring_read.md R99). -/
theorem Ringed.afterRead {s : State} {p : Packet} {ps : List Packet} (h : Ringed s (p :: ps)) :
    Ringed (afterRead p s) ps := by
  have hp := (h.ring.stored p (by simp)).length
  have hps' : ∀ q ∈ ps, q.Stored := fun q hq => h.ring.stored q (by simp [hq])
  have hcnt' : (Machine.afterRead p s).cnt = ps.length := by
    show s.cnt - 1 = _
    simp [h.ring.cnt_eq]
  have hbytes : p.bytes.length = 8 + p.len.toNat := by rw [p.length_bytes, hp]
  have hrd : s.rd + 8 + p.len.toNat ≤ s.cap →
      (Machine.afterRead p s).rd = s.rd + p.bytes.length := by
    intro hin
    show payloadStart .. + _ = _
    rw [payloadStart_of_le hin]
    omega
  cases h.ring with
  | straight hw hcnt hps hold hwr =>
    rw [flat_cons, holds_append] at hold
    rw [flat_cons, List.length_append] at hwr
    have hrd := hrd (by have := hold.1.1; omega)
    exact .of_run hcnt' hps' (by rw [hrd]; exact hold.2) (by rw [hrd]; exact hwr.trans (by omega))
  | around pre k post hsplit hw hcnt hps tail htb hjump head hwr =>
    cases pre with
    | nil =>
      obtain ⟨rfl, rfl⟩ : p = k ∧ ps = post := by simpa using hsplit
      simp only [List.length_nil, flat_nil] at htb
      have hrd : (Machine.afterRead p s).rd = p.data.length := by
        show payloadStart .. + _ = _
        rw [payloadStart_of_lt (by omega), hp, Nat.zero_add]
      have hrest := ((holds_append ..).mp head).2
      rw [Nat.zero_add] at hrest
      exact .of_run hcnt' hps' (by rw [hrd]; exact hrest) (by rw [hrd]; exact hwr)
    | cons q pre =>
      obtain ⟨rfl, rfl⟩ : p = q ∧ ps = pre ++ k :: post := by simpa using hsplit
      rw [flat_cons, List.append_assoc, holds_append] at tail
      rw [flat_cons, List.length_append] at htb
      have hrd := hrd (by have := tail.1.1; omega)
      obtain ⟨-, hcap⟩ := h.tb hw
      have hle := ((wrapped_iff s).mp hw).2
      have hw' : wrapped (Machine.afterRead p s) = true := by
        rw [wrapped_iff, hcnt', hrd]
        exact ⟨by simp, hle.trans (by omega)⟩
      have htb' : s.tb = (Machine.afterRead p s).rd + (flat pre).length + 8 := by omega
      refine ⟨.around pre k post rfl hw' hcnt' hps' (by rw [hrd]; exact tail.2) htb' hjump head hwr,
        h.wr_le, ?_, fun _ => ⟨?_, hcap⟩, fun h0 => ?_⟩
      · show _ ≤ s.cap
        omega
      · show _ < s.tb
        omega
      · rw [hcnt'] at h0
        simp at h0

/-- What READ reads on a ring is its first packet, whatever the draw. -/
theorem Ring.reads_first {s : State} {p : Packet} {ps : List Packet} (h : Ring s (p :: ps)) :
    readSubHeader s.rd s = .ok (p.len, p.skip) ∧
      memRead (payloadStart s.rd p.len.toNat s + p.skip.toNat) (p.len.toNat - p.skip.toNat) s =
        .ok (p.data.drop p.skip.toNat) := by
  obtain ⟨hsub, hdata⟩ := h.first
  obtain ⟨hlen, hskip⟩ := h.stored p (by simp)
  exact ⟨readSubHeader_of_given (by simpa using hsub.1) (by simpa using hsub.2),
    (hdata.drop (by omega)).memRead (by simp [hlen])⟩

/-! ### Every command keeps the ring, and its queue follows the response -/

/-- How the packet queue goes from `ps` to `qs` under a command answered `r` (10_state.md R38). -/
def QueueStep (i : Instr) (r : Response) (ps qs : List Packet) : Prop :=
  match i, r.code with
  | .write len skip data, .ok => qs = ps ++ [⟨len, skip, data⟩]
  | .read, .ok => ∃ p, ps = p :: qs ∧ r = ⟨.ok, [p.len - p.skip], p.data.drop p.skip.toNat⟩
  | .clear, .ok => qs = []
  | _, _ => qs = ps

theorem queueStep_of_error {i : Instr} {r : Response} (ps : List Packet) (hr : r.code ≠ .ok) :
    QueueStep i r ps ps := by
  unfold QueueStep
  split
  · exact absurd ‹_› hr
  · exact absurd ‹_› hr
  · exact absurd ‹_› hr
  · rfl

/-- Every command answered from a legal ring leaves a legal ring, whose packets follow the response. -/
theorem RingLegal.answer {i : Instr} {s t : State} {r : Response} {ps : List Packet}
    (h : RingLegal s ps) (ha : ExecAnswer s i r t) : ∃ qs, RingLegal t qs ∧ QueueStep i r ps qs := by
  cases ha with
  | raised i e =>
    exact ⟨ps, h.congr ⟨rfl, rfl, rfl, rfl, rfl, rfl⟩ rfl, queueStep_of_error ps e.code_ne_ok⟩
  | fatal i hf =>
    exact ⟨ps, h.congr ⟨rfl, rfl, rfl, rfl, rfl, rfl⟩ rfl, queueStep_of_error ps (by decide)⟩
  | write hf hlen hskip hroom hplace =>
    have hready := h.roomLoop hroom
    have hfits := (roomLoop_ready hroom).1
    obtain rfl := Except.ok.inj ((hready.ringed.placePacket_eq hlen hfits).symm.trans hplace)
    exact ⟨_, (hready.placed hlen hskip hfits).congr ⟨rfl, rfl, rfl, rfl, rfl, rfl⟩ rfl, rfl⟩
  | read hf hcnt hsub hskip hview =>
    cases ps with
    | nil => exact absurd (h.ringed.ring.cnt_eq) hcnt.ne'
    | cons p ps =>
      obtain ⟨hsub', hview'⟩ := h.ringed.ring.reads_first
      obtain ⟨rfl, rfl⟩ : p.len = _ ∧ p.skip = _ := by simpa using hsub'.symm.trans hsub
      obtain rfl := Except.ok.inj (hview'.symm.trans hview)
      have hread : RingLegal (afterRead p s) ps :=
        ⟨h.params, h.grown, h.admitted, h.ringed.afterRead, h.store.wf, h.store.inside⟩
      exact ⟨ps, hread.congr ⟨rfl, rfl, rfl, rfl, rfl, rfl⟩ rfl, p, rfl, rfl⟩
  | query hport => exact ⟨ps, h.congr ⟨rfl, rfl, rfl, rfl, rfl, rfl⟩ rfl, rfl⟩
  | clear hf =>
    refine ⟨[], ⟨h.params, h.grown, h.admitted, .of_run rfl (by simp) ⟨?_, by simp⟩ rfl,
      h.store.wf, h.store.inside⟩, rfl⟩
    exact Nat.zero_le _
  | decode hwin =>
    exact ⟨ps, h.congr (by constructor <;> simp [respondOk]) (by simp [respondOk]), rfl⟩

/-- Settles O49: a legal state is a legal ring of its packets, and `RingLegal.answer` says how they follow
the response. -/
theorem queueFollowsTheResponses : Obligations.QueueFollowsTheResponses := by
  intro s t i r hs h hr
  obtain ⟨ps, hring, hpkts⟩ := hs.ringLegal
  obtain ⟨qs, hring', hstep⟩ := hring.answer (exec_answer_of_sent h hr)
  exact ⟨ps, qs, hpkts, hring'.pkts, hstep⟩

/-! ### Every step keeps the legal states -/

theorem LegalState.exec {i : Instr} {s t : State} (hs : LegalState s) (h : exec i s = .next t) :
    LegalState t := by
  obtain ⟨ps, hring, -⟩ := hs.ringLegal
  obtain ⟨r, ha⟩ := exec_answer h
  obtain ⟨qs, hring', -⟩ := hring.answer ha
  exact hring'.legalState (exec_errLegal hs.err h) (exec_hdrLegal hs.hdr h)

theorem LegalState.raiseErr {s : State} (hs : LegalState s) (e : ErrBit) (port : Port) :
    LegalState (raiseErr e port s) := by
  obtain ⟨ps, hring, -⟩ := hs.ringLegal
  refine RingLegal.legalState (ps := ps) ?_ (errSet_lt e hs.err) (hs.hdr.congr rfl)
  exact hring.congr ⟨rfl, rfl, rfl, rfl, rfl, rfl⟩ rfl

/-- A pending transaction, legal or not, keeps the legal states (30_encoding.md R70). -/
theorem LegalState.perform {port : Port} {q : Request} {s t : State} (hs : LegalState s)
    (h : perform port q s = .next t) : LegalState t := by
  have hs' := hs.withOutside (s.pend.set port none) s.sent s.inputs s.draws
  rw [perform_eq] at h
  split at h
  next i hdec => exact hs'.exec h
  next e hdec =>
    cases h
    exact hs'.raiseErr .illegal port

/-- Hard reset leaves a legal state for every legal pair of parameters (70_reset_and_hazards.md R143). -/
theorem hardReset_legalState {s : State} (hp : s.params.Legal) : LegalState (hardReset s) := by
  have hadm : admits s.params s.params.initCapacity = true := by
    unfold admits
    split
    · rfl
    · next m hm => exact decide_eq_true (hp.init_le_max m hm)
  have hring : RingLegal (hardReset s) [] :=
    ⟨hp, ⟨0, by simp⟩, hadm, .of_run rfl (by simp) ⟨Nat.zero_le _, by simp⟩ rfl, Memory.wf_nil, nofun⟩
  exact hring.legalState (by simp [ErrLegal]) (.noDecode rfl rfl rfl rfl)

/-- Settles O46: a step is a hard reset, a change of what is pending or still to come, or a pending
transaction performed. -/
theorem stepKeepsLegalState : Obligations.StepKeepsLegalState := by
  intro s t hs h
  obtain ⟨rest, -, hstep⟩ | ⟨port, q, rest, -, -, hstep⟩ | ⟨port, -, -, q, -, -, hstep⟩ |
    ⟨-, rest, -, -, hstep⟩ | ⟨port, rest, q, -, -, hstep⟩ | ⟨-, -, hstep⟩ |
    ⟨-, port, q, d, -, hstep⟩ := step_cases s <;> rw [hstep] at h
  · cases h
    exact hardReset_legalState hs.params
  · cases h
    exact hs.withOutside _ s.sent rest s.draws
  · exact hs.perform h
  · cases h
    exact hs.withOutside s.pend s.sent rest s.draws
  · exact (hs.withOutside s.pend s.sent rest s.draws).perform h
  · cases h
    exact hs
  · exact (hs.withOutside s.pend s.sent s.inputs d).perform h

/-! ### The draw of STORE's unspecified bytes -/

/-- The same state with the draw numbered `f`. -/
def State.redrawn (s : State) (f : Nat) : State := { s with fills := f }

@[simp] theorem inFatal_redrawn (s : State) (f : Nat) : inFatal (s.redrawn f) = inFatal s := rfl

@[simp] theorem empty_redrawn (s : State) (f : Nat) : empty (s.redrawn f) = empty s := rfl

theorem Ring.redrawn {s : State} {ps : List Packet} (h : Ring s ps) (f : Nat) : Ring (s.redrawn f) ps :=
  h.withFills f

/-- The same outcome of the room loop with the draw numbered `f`. -/
def Room.redrawn : Room → Nat → Room
  | .ready s, f => .ready (s.redrawn f)
  | .overCap, _ => .overCap
  | .stopped e, _ => .stopped e

/-- A compaction of a ring moves written bytes only, so the draw before it does not show after it. -/
theorem Ring.compactRoom_redrawn {s : State} {ps : List Packet} (h : Ring s ps) {c : Nat} (hc : live s ≤ c)
    (f : Nat) : compactRoom c (s.redrawn f) = (compactRoom c s).redrawn (f + 1) := by
  have hs := (h.compacted c hc).1
  have hf : Machine.compact c (s.redrawn f) = .ok (Compacted s ps c (f + 1)) :=
    ((h.redrawn f).compacted c hc).1
  rw [compactRoom, compactRoom, hs, hf]
  rfl

theorem Ringed.roomStep_redrawn {s : State} {ps : List Packet} (h : Ringed s ps) (len f : Nat) :
    roomStep len (s.redrawn f) = (roomStep len s).redrawn (f + 1) := by
  have hlive := h.live_le
  have hgrow := h.ring.compactRoom_redrawn (c := 2 * s.cap) (by omega) f
  have hsame := h.ring.compactRoom_redrawn hlive f
  show (if (growWanted len s && admits s.params (2 * s.cap)) = true then
      compactRoom (2 * s.cap) (s.redrawn f)
    else if need len ≤ s.cap - live s then compactRoom s.cap (s.redrawn f) else .overCap) = _
  rw [hgrow, hsame, roomStep]
  split_ifs <;> rfl

/-- The room loop on a legal ring goes the same way whatever the draw. -/
theorem RingLegal.roomLoop_redrawn {ps : List Packet} (len fuel : Nat) {s : State} (h : RingLegal s ps)
    (f : Nat) :
    ∃ g, Machine.roomLoop len fuel (s.redrawn f) = (Machine.roomLoop len fuel s).redrawn g := by
  have hfits : ∀ (s : State) f, fits len (s.redrawn f) = fits len s := fun _ _ => rfl
  induction fuel generalizing s f with
  | zero =>
    refine ⟨f, ?_⟩
    rw [Machine.roomLoop, Machine.roomLoop, hfits]
    split <;> rfl
  | succ fuel ih =>
    rw [Machine.roomLoop, Machine.roomLoop, hfits, h.ringed.roomStep_redrawn]
    split
    · exact ⟨f, rfl⟩
    cases hstep : Machine.roomStep len s with
    | ready s1 => exact ih (h.roomStep hstep) (f + 1)
    | overCap => exact ⟨f, rfl⟩
    | stopped e => exact ⟨f, rfl⟩

theorem placed_redrawn (len skip : Word) (data : List Byte) (s : State) (f : Nat) :
    placed len skip data (s.redrawn f) = (placed len skip data s).redrawn f := by
  have hfit : headFit len.toNat (s.redrawn f) = headFit len.toNat s := rfl
  rw [placed, placed, hfit]
  split <;> rfl

/-- Placing a packet that fits writes bytes and reads none. -/
theorem Ringed.placePacket_redrawn {len skip : Word} {data : List Byte} {s s' : State} {ps : List Packet}
    (hs : Ringed s ps) (hlen : data.length = len.toNat) (hfits : fits len.toNat s = true)
    (h : placePacket len skip data s = .ok s') (f : Nat) :
    placePacket len skip data (s.redrawn f) = .ok (s'.redrawn f) := by
  obtain rfl := Except.ok.inj ((hs.placePacket_eq hlen hfits).symm.trans h)
  have hs' : Ringed (s.redrawn f) ps := hs.congr ⟨rfl, rfl, rfl, rfl, rfl, rfl⟩
  rw [hs'.placePacket_eq hlen hfits, placed_redrawn]

theorem RingLegal.execWrite_redrawn {len skip : Word} {data : List Byte} {s t : State} {ps : List Packet}
    (hs : RingLegal s ps) (h : execWrite len skip data s = .next t) (f : Nat) :
    ∃ g, execWrite len skip data (s.redrawn f) = .next (t.redrawn g) := by
  obtain ⟨g, hroom⟩ : ∃ g, makeRoom len.toNat (s.redrawn f) = (makeRoom len.toNat s).redrawn g :=
    hs.roomLoop_redrawn len.toNat (roomFuel len.toNat s) f
  unfold execWrite at h ⊢
  rw [hroom, inFatal_redrawn]
  split_ifs at h ⊢ with hlen
  · cases h
    exact ⟨f, rfl⟩
  · cases h
    exact ⟨f, rfl⟩
  · cases hready : makeRoom len.toNat s with
    | ready s1 =>
      rw [hready] at h
      obtain ⟨s2, hplace, h⟩ := andThen_next h
      cases h
      have hfits := (roomLoop_ready hready).1
      have hplace' := (hs.roomLoop hready).ringed.placePacket_redrawn
        (by simpa [Instr.wellFormed] using hlen) hfits hplace g
      exact ⟨g, andThen_ok hplace'⟩
    | overCap =>
      rw [hready] at h
      cases h
      exact ⟨f, rfl⟩
    | stopped e =>
      rw [hready] at h
      cases h
  · cases h
    exact ⟨f, rfl⟩

/-- A READ from a ring that is not empty answers its first packet (41_ring_read.md R95, R97). -/
theorem Ring.execRead_eq {s : State} {p : Packet} {ps : List Packet} (h : Ring s (p :: ps))
    (hf : inFatal s = false) : execRead s =
      .next (respondOk .C [p.len - p.skip] (p.data.drop p.skip.toNat) (afterRead p s)) := by
  obtain ⟨hsub, hview⟩ := h.reads_first
  have hskip := (h.stored p (by simp)).skip_le
  have hempty : Machine.empty s = false := by simp [Machine.empty, h.cnt_eq]
  rw [execRead, hf, hempty]
  simp only [Bool.false_eq_true, if_false, andThen_ok hsub, Nat.not_lt.mpr hskip, andThen_ok hview]
  rfl

theorem Ring.execRead_redrawn {s t : State} {ps : List Packet} (hs : Ring s ps)
    (h : execRead s = .next t) (f : Nat) : execRead (s.redrawn f) = .next (t.redrawn f) := by
  cases hf : inFatal s with
  | true =>
    rw [execRead, hf] at h
    cases h
    rw [execRead, inFatal_redrawn, hf]
    rfl
  | false =>
    cases ps with
    | nil =>
      have hempty : Machine.empty s = true := (empty_iff s).mpr hs.cnt_eq
      rw [execRead, hf, hempty] at h
      cases h
      rw [execRead, inFatal_redrawn, empty_redrawn, hf, hempty]
      rfl
    | cons p ps =>
      rw [hs.execRead_eq hf] at h
      cases h
      exact (hs.redrawn f).execRead_eq hf

theorem execQuery_redrawn {port : Port} {s t : State} (h : execQuery port s = .next t) (f : Nat) :
    execQuery port (s.redrawn f) = .next (t.redrawn f) := by
  unfold execQuery at h ⊢
  split_ifs at h ⊢ <;> (cases h; rfl)

theorem execClear_redrawn {s t : State} (h : execClear s = .next t) (f : Nat) :
    execClear (s.redrawn f) = .next (t.redrawn f) := by
  unfold execClear at h ⊢
  rw [inFatal_redrawn]
  split_ifs at h ⊢ <;> (cases h; rfl)

theorem validate_redrawn (size : Word) (win : List Byte) (s : State) (f : Nat) :
    validate size win (s.redrawn f) = (validate size win s).redrawn f := by
  unfold validate
  split_ifs <;> rfl

theorem execDecode_redrawn {size : Word} {win : List Byte} {s t : State}
    (h : execDecode size win s = .next t) (f : Nat) :
    execDecode size win (s.redrawn f) = .next (t.redrawn f) := by
  unfold execDecode at h ⊢
  rw [validate_redrawn]
  split_ifs at h ⊢ <;> (cases h; rfl)

/-- Settles O52: QUERY, CLEAR and DECODE read no byte of STORE, and WRITE and READ only bytes of the
packets, which rules wrote. -/
theorem unspecifiedBytesDecideNothing : Obligations.UnspecifiedBytesDecideNothing := by
  intro s t i f hs h
  obtain ⟨ps, hring, -⟩ := hs.ringLegal
  cases i with
  | write len skip data => exact hring.execWrite_redrawn h f
  | read => exact ⟨f, hring.ringed.ring.execRead_redrawn h f⟩
  | query port => exact ⟨f, execQuery_redrawn h f⟩
  | clear => exact ⟨f, execClear_redrawn h f⟩
  | decode size win => exact ⟨f, execDecode_redrawn h f⟩

end Sys2Proof.Machine

/-! Family 20_memory: no order between an HVU command and an RBU command shows (20_memory.md R52). -/

namespace Sys2Proof.Machine

/-! ### The HVU side of a state -/

/-- `s` with the HVU side of `u`: the four result registers and what port H received. -/
def State.withHvu (s u : State) : State :=
  { s with
    hdrResult := u.hdrResult
    hdrLength := u.hdrLength
    hdrType := u.hdrType
    hdrInfo := u.hdrInfo
    sent := { s.sent with h := u.sent.h } }

@[simp] theorem withHvu_cap (s u : State) : (s.withHvu u).cap = s.cap := rfl

@[simp] theorem withHvu_rd (s u : State) : (s.withHvu u).rd = s.rd := rfl

@[simp] theorem withHvu_wr (s u : State) : (s.withHvu u).wr = s.wr := rfl

@[simp] theorem inFatal_withHvu (s u : State) : inFatal (s.withHvu u) = inFatal s := rfl

@[simp] theorem empty_withHvu (s u : State) : empty (s.withHvu u) = empty s := rfl

@[simp] theorem fits_withHvu (len : Nat) (s u : State) : fits len (s.withHvu u) = fits len s := rfl

@[simp] theorem headFit_withHvu (len : Nat) (s u : State) : headFit len (s.withHvu u) = headFit len s := rfl

@[simp] theorem liveBytes_withHvu (s u : State) : liveBytes (s.withHvu u) = liveBytes s := rfl

@[simp] theorem readSubHeader_withHvu (h : Nat) (s u : State) :
    readSubHeader h (s.withHvu u) = readSubHeader h s := rfl

/-! ### DECODE: only the HVU side follows it -/

/-- What a well-formed DECODE leaves (43_header_decode.md R110, R119). -/
def decoded (size : Word) (win : List Byte) (s : State) : State :=
  respondOk .H (hdrWords (validate size win s)) [] (validate size win s)

theorem exec_decode_of_length {size : Word} {win : List Byte} (hwin : win.length = 16) (s : State) :
    exec (.decode size win) s = .next (decoded size win s) :=
  if_pos (by simpa [Instr.wellFormed] using hwin)

/-- A DECODE writes the HVU side only, and the same one from every state where port H received the same. -/
theorem decoded_eq_withHvu {s t : State} (size : Word) (win : List Byte)
    (hsent : t.sent.get .H = s.sent.get .H) : decoded size win t = t.withHvu (decoded size win s) := by
  unfold decoded validate
  split_ifs <;> simp [State.withHvu, hdrFail, hdrPass, respondOk, respond, hdrWords, PerPort.set, hsent]

/-! ### WRITE keeps the HVU side and does not read it -/

/-- The same outcome of the room loop with the HVU side of `u`. -/
def Room.withHvu : Room → State → Room
  | .ready s, u => .ready (s.withHvu u)
  | .overCap, _ => .overCap
  | .stopped f, _ => .stopped f

theorem compactRoom_withHvu (newCap : Nat) (s u : State) :
    compactRoom newCap (s.withHvu u) = (compactRoom newCap s).withHvu u := by
  rw [compactRoom, compactRoom, compact, compact, liveBytes_withHvu]
  cases liveBytes s <;> rfl

theorem roomStep_withHvu (len : Nat) (s u : State) :
    roomStep len (s.withHvu u) = (roomStep len s).withHvu u := by
  show (if (growWanted len s && admits s.params (2 * s.cap)) = true then
      compactRoom (2 * s.cap) (s.withHvu u)
    else if need len ≤ s.cap - live s then compactRoom s.cap (s.withHvu u) else .overCap) = _
  rw [compactRoom_withHvu, compactRoom_withHvu, roomStep]
  split_ifs <;> rfl

theorem roomLoop_withHvu (len fuel : Nat) (s u : State) :
    roomLoop len fuel (s.withHvu u) = (roomLoop len fuel s).withHvu u := by
  induction fuel generalizing s with
  | zero =>
    rw [roomLoop, roomLoop, fits_withHvu]
    split <;> rfl
  | succ fuel ih =>
    rw [roomLoop, roomLoop, fits_withHvu, roomStep_withHvu]
    split
    · rfl
    cases roomStep len s with
    | ready s1 => exact ih s1
    | overCap => rfl
    | stopped f => rfl

theorem makeRoom_withHvu (len : Nat) (s u : State) :
    makeRoom len (s.withHvu u) = (makeRoom len s).withHvu u :=
  roomLoop_withHvu len (roomFuel len s) s u

theorem memWrite_withHvu (addr : Nat) (v : List Byte) (s u : State) :
    memWrite addr v (s.withHvu u) = (memWrite addr v s).map (·.withHvu u) := by
  rw [memWrite, memWrite, withHvu_cap]
  split_ifs <;> rfl

theorem putSubHeader_withHvu (len skip : Word) (s u : State) :
    putSubHeader len skip (s.withHvu u) = (putSubHeader len skip s).map (·.withHvu u) := by
  unfold putSubHeader
  rw [withHvu_wr, memWrite_withHvu]
  cases memWrite s.wr (subHeader len skip) s <;> rfl

theorem putAtHead_withHvu (data : List Byte) (s u : State) :
    putAtHead data (s.withHvu u) = (putAtHead data s).map (·.withHvu u) := by
  unfold putAtHead
  rw [withHvu_wr, memWrite_withHvu]
  cases memWrite s.wr data s <;> rfl

theorem putAtStart_withHvu (data : List Byte) (s u : State) :
    putAtStart data (s.withHvu u) = (putAtStart data s).map (·.withHvu u) := by
  unfold putAtStart
  rw [memWrite_withHvu]
  cases memWrite 0 data s <;> rfl

theorem placePacket_withHvu (len skip : Word) (data : List Byte) (s u : State) :
    placePacket len skip data (s.withHvu u) = (placePacket len skip data s).map (·.withHvu u) := by
  unfold placePacket
  rw [putSubHeader_withHvu, headFit_withHvu]
  cases putSubHeader len skip s with
  | error f => rfl
  | ok s1 =>
    dsimp only [Except.map]
    rw [putAtHead_withHvu, putAtStart_withHvu]
    split_ifs
    · cases putAtHead data s1 <;> rfl
    · cases putAtStart data s1 <;> rfl

theorem execWrite_withHvu {len skip : Word} {data : List Byte} {s t : State}
    (h : execWrite len skip data s = .next t) (u : State) :
    execWrite len skip data (s.withHvu u) = .next (t.withHvu u) := by
  unfold execWrite at h ⊢
  rw [inFatal_withHvu, makeRoom_withHvu]
  split_ifs at h ⊢
  · cases h
    rfl
  · cases h
    rfl
  · cases hroom : makeRoom len.toNat s with
    | ready s1 =>
      rw [hroom] at h
      obtain ⟨s2, hplace, h⟩ := andThen_next h
      cases h
      have hplace' : placePacket len skip data (s1.withHvu u) = .ok (s2.withHvu u) := by
        rw [placePacket_withHvu, hplace]
        rfl
      exact andThen_ok hplace'
    | overCap =>
      rw [hroom] at h
      cases h
      rfl
    | stopped f =>
      rw [hroom] at h
      cases h
  · cases h
    rfl

/-! ### The other commands of the RBU keep the HVU side and do not read it -/

theorem execRead_withHvu {s t : State} (h : execRead s = .next t) (u : State) :
    execRead (s.withHvu u) = .next (t.withHvu u) := by
  unfold execRead at h ⊢
  rw [inFatal_withHvu, empty_withHvu, withHvu_rd, readSubHeader_withHvu]
  split_ifs at h ⊢
  · cases h
    rfl
  · cases h
    rfl
  · obtain ⟨⟨len, skip⟩, hsub, h⟩ := andThen_next h
    rw [andThen_ok hsub]
    dsimp only at h ⊢
    split_ifs at h ⊢
    obtain ⟨view, hview, h⟩ := andThen_next h
    cases h
    exact andThen_ok hview

theorem execQuery_withHvu {port : Port} {s t : State} (hport : port ≠ .H)
    (h : execQuery port s = .next t) (u : State) : execQuery port (s.withHvu u) = .next (t.withHvu u) := by
  cases port with
  | H => exact absurd rfl hport
  | _ =>
    cases h
    rfl

theorem execClear_withHvu {s t : State} (h : execClear s = .next t) (u : State) :
    execClear (s.withHvu u) = .next (t.withHvu u) := by
  unfold execClear at h ⊢
  rw [inFatal_withHvu]
  split_ifs at h ⊢ <;> (cases h; rfl)

/-- A command of the RBU does the same whatever the HVU side is, and leaves it (20_memory.md R52). -/
theorem exec_withHvu {i : Instr} {s t : State} (hport : i.port ≠ .H) (h : exec i s = .next t) (u : State) :
    exec i (s.withHvu u) = .next (t.withHvu u) := by
  cases i with
  | write len skip data => exact execWrite_withHvu h u
  | read => exact execRead_withHvu h u
  | query port => exact execQuery_withHvu hport h u
  | clear => exact execClear_withHvu h u
  | decode size win => exact absurd rfl hport

/-- A command of the RBU is not answered on port H (30_encoding.md R57). -/
theorem exec_sent_H {i : Instr} {s t : State} (hport : i.port ≠ .H) (h : exec i s = .next t) :
    t.sent.get .H = s.sent.get .H := by
  obtain ⟨r, ha⟩ := exec_answer h
  rw [ha.sent, PerPort.get_set_other _ _ hport.symm]

/-- Settles O41: before or after the RBU command, the DECODE replaces the HVU side by the same one, which
the RBU command neither reads nor writes. -/
theorem decodeCommutesWithRingCommands : Obligations.DecodeCommutesWithRingCommands := by
  intro s t i size win hwin hport h
  have hs : decoded size win s = s.withHvu (decoded size win s) := decoded_eq_withHvu size win rfl
  have ht : decoded size win t = t.withHvu (decoded size win s) :=
    decoded_eq_withHvu size win (exec_sent_H hport h)
  refine ⟨_, _, exec_decode_of_length hwin s, ?_, exec_decode_of_length hwin t⟩
  calc exec i (decoded size win s)
    _ = exec i (s.withHvu (decoded size win s)) := congrArg (exec i) hs
    _ = .next (t.withHvu (decoded size win s)) := exec_withHvu hport h _
    _ = .next (decoded size win t) := by rw [ht]

end Sys2Proof.Machine

/-! Family 30_encoding: the decoder and the encoder (30_encoding.md R59 to R65, R72), illegal transactions
(R70), and the one response of each command (R57, R66, R71). -/

namespace Sys2Proof

/-! ### Well-formed commands -/

@[simp] theorem wellFormed_write (len skip : Word) (data : List Byte) :
    (Instr.write len skip data).wellFormed = true ↔ data.length = len.toNat := by
  simp [Instr.wellFormed]

@[simp] theorem wellFormed_query (port : Port) : (Instr.query port).wellFormed = true ↔ port ≠ .H := by
  simp [Instr.wellFormed]

@[simp] theorem wellFormed_decode (size : Word) (win : List Byte) :
    (Instr.decode size win).wellFormed = true ↔ win.length = 16 := by
  simp [Instr.wellFormed]

/-! ### The command word -/

/-- The operation code a command is issued with (30_encoding.md R60). -/
def Instr.op : Instr → Op
  | .write _ _ _ => .write
  | .read => .read
  | .query _ => .query
  | .clear => .clear
  | .decode _ _ => .decode

/-- The command word of an operation: its code in OP, and RSVD 0 (30_encoding.md R58, R60). -/
def Op.word : Op → Word
  | .write => 1#32
  | .read => 2#32
  | .query => 3#32
  | .clear => 4#32
  | .decode => 5#32

theorem encode_cw (i : Instr) : (encode i).cw = i.op.word := by cases i <;> rfl

@[simp] theorem rsvdField_word (op : Op) : rsvdField op.word = 0 := by cases op <;> rfl

@[simp] theorem opOfCode_opField_word (op : Op) : opOfCode (opField op.word) = some op := by
  cases op <;> rfl

/-- The opcode map gives an operation to its own code only (30_encoding.md R60). -/
theorem eq_opField_word_of_opOfCode {c : BitVec 4} {op : Op} (h : opOfCode c = some op) :
    c = opField op.word := by
  unfold opOfCode at h
  split_ifs at h <;> cases h <;> assumption

/-- A command word is its fields RSVD and OP (30_encoding.md R58). -/
theorem rsvdField_append_opField (cw : Word) : rsvdField cw ++ opField cw = cw :=
  (BitVec.extractLsb'_append_extractLsb'_eq_extractLsb' (start₁ := 0) (len₁ := 4) (len₂ := 28) rfl).trans
    BitVec.extractLsb'_eq_self

theorem eq_word_iff (cw : Word) (op : Op) :
    cw = op.word ↔ rsvdField cw = 0 ∧ opOfCode (opField cw) = some op := by
  constructor
  · rintro rfl
    exact ⟨rsvdField_word op, opOfCode_opField_word op⟩
  · rintro ⟨hrsvd, hop⟩
    rw [← rsvdField_append_opField cw, ← rsvdField_append_opField op.word, hrsvd, rsvdField_word,
      eq_opField_word_of_opOfCode hop]

/-! ### The decoder and the encoder -/

/-- A transaction decodes when its command word is an operation's, its port may issue that operation, and
its operands have the operation's shape. -/
theorem decode_eq_ok_iff {port : Port} {r : Request} {i : Instr} :
    decode port r = .ok i ↔
      ∃ op, r.cw = op.word ∧ mayIssue port op = true ∧ operandsOf port op r.args r.data = some i := by
  simp only [eq_word_iff]
  unfold decode
  constructor
  · intro h
    split_ifs at h with hrsvd
    split at h
    · cases h
    · next op hop =>
      split_ifs at h with hmay
      split at h
      · next hargs =>
        cases h
        exact ⟨op, ⟨not_not.mp hrsvd, hop⟩, hmay, hargs⟩
      · cases h
  · rintro ⟨op, ⟨hrsvd, hop⟩, hmay, hargs⟩
    simp [hrsvd, hop, hmay, hargs]

@[simp] theorem mayIssue_write (port : Port) : mayIssue port .write = true ↔ port = .P := by
  cases port <;> decide

@[simp] theorem mayIssue_read (port : Port) : mayIssue port .read = true ↔ port = .C := by
  cases port <;> decide

@[simp] theorem mayIssue_query (port : Port) : mayIssue port .query = true ↔ port ≠ .H := by
  cases port <;> decide

@[simp] theorem mayIssue_clear (port : Port) : mayIssue port .clear = true ↔ port = .K := by
  cases port <;> decide

@[simp] theorem mayIssue_decode (port : Port) : mayIssue port .decode = true ↔ port = .H := by
  cases port <;> decide

theorem mayIssue_op {i : Instr} (h : i.wellFormed = true) : mayIssue i.port i.op = true := by
  cases i with
  | query port => exact (mayIssue_query port).mpr ((wellFormed_query port).mp h)
  | _ => rfl

theorem operandsOf_encode {i : Instr} (h : i.wellFormed = true) :
    operandsOf i.port i.op (encode i).args (encode i).data = some i := by
  cases i with
  | write len skip data => exact if_pos ((wellFormed_write ..).mp h)
  | decode size win => exact if_pos ((wellFormed_decode ..).mp h)
  | _ => rfl

/-- What a permitted operation makes of operands of its shape is the well-formed command that carries them
(30_encoding.md R59, R72). -/
theorem encode_of_operandsOf {port : Port} {op : Op} {args : List Word} {data : List Byte} {i : Instr}
    (hmay : mayIssue port op = true) (h : operandsOf port op args data = some i) :
    i.wellFormed = true ∧ i.port = port ∧ encode i = ⟨op.word, args, data⟩ := by
  cases op with
  | write =>
    obtain rfl := (mayIssue_write port).mp hmay
    simp only [operandsOf] at h
    split at h
    · split_ifs at h with hlen
      cases h
      exact ⟨(wellFormed_write ..).mpr hlen, rfl, rfl⟩
    · cases h
  | read =>
    obtain rfl := (mayIssue_read port).mp hmay
    obtain ⟨⟨rfl, rfl⟩, rfl⟩ : (args = [] ∧ data = []) ∧ Instr.read = i := by simpa [operandsOf] using h
    exact ⟨rfl, rfl, rfl⟩
  | query =>
    obtain ⟨⟨rfl, rfl⟩, rfl⟩ : (args = [] ∧ data = []) ∧ Instr.query port = i := by
      simpa [operandsOf] using h
    exact ⟨(wellFormed_query port).mpr ((mayIssue_query port).mp hmay), rfl, rfl⟩
  | clear =>
    obtain rfl := (mayIssue_clear port).mp hmay
    obtain ⟨⟨rfl, rfl⟩, rfl⟩ : (args = [] ∧ data = []) ∧ Instr.clear = i := by simpa [operandsOf] using h
    exact ⟨rfl, rfl, rfl⟩
  | decode =>
    obtain rfl := (mayIssue_decode port).mp hmay
    simp only [operandsOf] at h
    split at h
    · split_ifs at h with hlen
      cases h
      exact ⟨(wellFormed_decode ..).mpr hlen, rfl, rfl⟩
    · cases h

/-- Settles O2: the command's own word, port and operands pass the decoder's three checks. -/
theorem decodeOfEncodeIsTheCommand : Obligations.DecodeOfEncodeIsTheCommand := by
  intro i hwf
  exact decode_eq_ok_iff.mpr ⟨i.op, encode_cw i, mayIssue_op hwf, operandsOf_encode hwf⟩

/-- Settles O3: what the decoder's three checks let through (`decode_eq_ok_iff`) is an encoding. -/
theorem decodedTransactionIsItsEncoding : Obligations.DecodedTransactionIsItsEncoding := by
  intro port r i h
  obtain ⟨op, hcw, hmay, hargs⟩ := decode_eq_ok_iff.mp h
  obtain ⟨hwf, hport, henc⟩ := encode_of_operandsOf hmay hargs
  exact ⟨hwf, hport, by rw [henc, ← hcw]⟩

/-- Settles O1: each transaction is the encoding of its command. -/
theorem tableWordsDecode : Obligations.TableWordsDecode :=
  ⟨decodeOfEncodeIsTheCommand (.write 10#32 0#32 [1, 2, 3, 4, 5, 6, 7, 8, 9, 10]) rfl,
    decodeOfEncodeIsTheCommand .read rfl, decodeOfEncodeIsTheCommand (.query .P) rfl,
    decodeOfEncodeIsTheCommand .clear rfl, decodeOfEncodeIsTheCommand (.decode 16#32 _) rfl⟩

/-- The decoder accepts exactly the requests of well-formed commands on their ports. -/
theorem decode_eq_ok_iff_encode {port : Port} {r : Request} {i : Instr} :
    decode port r = .ok i ↔ i.wellFormed = true ∧ i.port = port ∧ encode i = r := by
  refine ⟨decodedTransactionIsItsEncoding port r i, ?_⟩
  rintro ⟨hwf, rfl, rfl⟩
  exact decodeOfEncodeIsTheCommand i hwf

end Sys2Proof

namespace Sys2Proof.Machine

/-! ### Illegal transactions -/

/-- The five legal forms of a transaction (30_encoding.md R59, R60, R72). -/
theorem exists_decode_iff (port : Port) (r : Request) :
    (∃ i, decode port r = .ok i) ↔
      (r.cw = 1#32 ∧ port = .P ∧ ∃ len skip, r.args = [len, skip] ∧ r.data.length = len.toNat) ∨
      (r.cw = 2#32 ∧ port = .C ∧ r.args = [] ∧ r.data = []) ∨
      (r.cw = 3#32 ∧ port ≠ .H ∧ r.args = [] ∧ r.data = []) ∨
      (r.cw = 4#32 ∧ port = .K ∧ r.args = [] ∧ r.data = []) ∨
      (r.cw = 5#32 ∧ port = .H ∧ (∃ size, r.args = [size]) ∧ r.data.length = 16) := by
  simp only [decode_eq_ok_iff_encode]
  constructor
  · rintro ⟨i, hwf, rfl, rfl⟩
    cases i with
    | write len skip data =>
      exact .inl ⟨rfl, rfl, len, skip, rfl, (wellFormed_write ..).mp hwf⟩
    | read => exact .inr (.inl ⟨rfl, rfl, rfl, rfl⟩)
    | query port =>
      exact .inr (.inr (.inl ⟨rfl, (wellFormed_query port).mp hwf, rfl, rfl⟩))
    | clear => exact .inr (.inr (.inr (.inl ⟨rfl, rfl, rfl, rfl⟩)))
    | decode size win =>
      exact .inr (.inr (.inr (.inr ⟨rfl, rfl, ⟨size, rfl⟩, (wellFormed_decode ..).mp hwf⟩)))
  · obtain ⟨cw, args, data⟩ := r
    rintro (⟨rfl, rfl, len, skip, rfl, hlen⟩ | ⟨rfl, rfl, rfl, rfl⟩ | ⟨rfl, hport, rfl, rfl⟩ |
      ⟨rfl, rfl, rfl, rfl⟩ | ⟨rfl, rfl, ⟨size, rfl⟩, hlen⟩)
    · exact ⟨.write len skip data, (wellFormed_write ..).mpr hlen, rfl, rfl⟩
    · exact ⟨.read, rfl, rfl, rfl⟩
    · exact ⟨.query port, (wellFormed_query port).mpr hport, rfl, rfl⟩
    · exact ⟨.clear, rfl, rfl, rfl⟩
    · exact ⟨.decode size data, (wellFormed_decode ..).mpr hlen, rfl, rfl⟩

/-- Raising ILLEGAL, written out (30_encoding.md R70). -/
theorem raiseErr_illegal_eq (port : Port) (s : State) :
    raiseErr .illegal port s = answered port .errIllegal [] [] { s with err := s.err ||| 4#32 } := rfl

/-- Settles O4: the forms are `exists_decode_iff`, and a transaction that does not decode raises ILLEGAL. -/
theorem otherTransactionsAreIllegal : Obligations.OtherTransactionsAreIllegal := by
  intro port r
  refine ⟨exists_decode_iff port r, fun s rest hin hp hbad => ?_⟩
  cases hdec : decode port r with
  | ok i => exact absurd ⟨i, hdec⟩ hbad
  | error e => rw [step_of_take hin hp, perform_of_illegal _ hdec, raiseErr_illegal_eq]

/-- Settles O33: the term is not well-formed, so DECODE raises ILLEGAL. -/
theorem decodeWithWrongWindowIsIllegal : Obligations.DecodeWithWrongWindowIsIllegal := by
  intro s size win hwin
  simp only [exec, execDecode, wellFormed_decode, if_neg hwin, raiseErr_illegal_eq]

/-! ### A command presented, offered, or waiting -/

/-- Settles O7: the presented transaction is taken at once, on the port of the command it decodes to. -/
theorem presentedWordRuns : Obligations.PresentedWordRuns := by
  intro s nbits w i h
  have hdec : decode (portOfBits nbits w) (requestOfBits nbits w) = .ok i := by
    unfold decodeTableWord at h
    split at h <;> cases h
    assumption
  obtain ⟨-, hport, -⟩ := decode_eq_ok_iff_encode.mp hdec
  rw [step_of_take (port := portOfBits nbits w) (rest := s.inputs) rfl (PerPort.get_set_same ..),
    perform_of_decode _ hdec, hport]
  simp [State.withFetchWord, present]

theorem step_of_issue {s : State} {port : Port} {r : Request} {rest : List Input}
    (hin : s.inputs = .issue port r :: rest) : step s = offer port r rest s := by
  simp only [step, stepOnce, hin]

/-- Settles O8: the two cases of an offer. -/
theorem offeredCommandWaitsForItsPort : Obligations.OfferedCommandWaitsForItsPort := by
  intro s port r rest hin
  rw [step_of_issue hin]
  constructor
  · intro hp
    simp only [offer, hp]
  · intro q hp
    simp only [offer, hp]

/-! ### One response for each command -/

/-- No command touches the parameters, what is pending, or what is still to come from outside. -/
theorem ExecAnswer.outside {i : Instr} {s t : State} {r : Response} (h : ExecAnswer s i r t) :
    t.params = s.params ∧ t.pend = s.pend ∧ t.inputs = s.inputs ∧ t.draws = s.draws := by
  cases h with
  | write hf hlen hskip hroom hplace =>
    obtain ⟨c, r, w, b, m, f, rfl⟩ := writeOk_frame hroom hplace
    exact ⟨rfl, rfl, rfl, rfl⟩
  | decode hwin => simp [respondOk]
  | _ => exact ⟨rfl, rfl, rfl, rfl⟩

/-- Settles O38, the shape by one case per answer. -/
theorem oneResponseOfItsShape : Obligations.OneResponseOfItsShape := by
  intro s t i h
  obtain ⟨r, ha⟩ := exec_answer h
  obtain ⟨hparams, hpend, hinputs, hdraws⟩ := ha.outside
  refine ⟨hparams, hpend, hinputs, hdraws, r, ha.sent, ?_⟩
  cases ha with
  | raised i e => exact ⟨fun _ => ⟨rfl, rfl⟩, fun hok => absurd hok e.code_ne_ok⟩
  | fatal i hf => exact ⟨fun _ => ⟨rfl, rfl⟩, nofun⟩
  | write hf hlen hskip hroom hplace => exact ⟨fun hne => absurd rfl hne, fun _ => ⟨rfl, rfl⟩⟩
  | read hf hcnt hsub hskip hview =>
    refine ⟨fun hne => absurd rfl hne, fun _ => ⟨_, rfl, ?_⟩⟩
    rw [memRead_length hview, BitVec.toNat_sub_of_le hskip]
  | query hport => exact ⟨fun hne => absurd rfl hne, fun _ => ⟨⟨_, rfl⟩, rfl⟩⟩
  | clear hf => exact ⟨fun hne => absurd rfl hne, fun _ => ⟨rfl, rfl⟩⟩
  | decode hwin => exact ⟨fun hne => absurd rfl hne, fun _ => ⟨rfl, rfl⟩⟩

/-! ### The account of responses -/

/-- The responses a port has received and those due on it, together (60_exceptions.md R139). -/
def account (port : Port) (s : State) : Nat := (s.sent.get port).length + due port s

/-- A command that becomes pending stays due on its port. -/
theorem account_of_issue {s : State} {p : Port} {r : Request} {rest : List Input}
    (hin : s.inputs = .issue p r :: rest) (hp : s.pend.get p = none) (port : Port) :
    account port { s with inputs := rest, pend := s.pend.set p (some r) } = account port s := by
  by_cases heq : port = p
  · subst heq
    simp [account, due, hin, hp, Nat.add_comm]
  · simp [account, due, hin, heq, Ne.symm heq]

theorem account_of_take {s : State} {p : Port} {rest : List Input} (hin : s.inputs = .take p :: rest)
    (port : Port) : account port { s with inputs := rest } = account port s := by
  simp [account, due, hin]

/-- A transaction performed gives its port one response and is no longer pending there; nothing else of
what the ports have and await changes (30_encoding.md R57, R70). -/
theorem perform_outside {p : Port} {q : Request} {s t : State} (h : perform p q s = .next t) :
    ∃ r, t.sent = s.sent.set p (s.sent.get p ++ [r]) ∧ t.pend = s.pend.set p none ∧ t.inputs = s.inputs := by
  cases hdec : decode p q with
  | ok i =>
    rw [perform_of_decode s hdec] at h
    obtain ⟨-, rfl, -⟩ := decode_eq_ok_iff_encode.mp hdec
    obtain ⟨r, ha⟩ := exec_answer h
    obtain ⟨-, hpend, hinputs, -⟩ := ha.outside
    exact ⟨r, ha.sent, hpend, hinputs⟩
  | error e =>
    rw [perform_of_illegal s hdec] at h
    cases h
    exact ⟨_, rfl, rfl, rfl⟩

/-- The response of a transaction performed takes the place of the pending command in the account. -/
theorem perform_account {p : Port} {q : Request} {s t : State} (hp : s.pend.get p = some q)
    (h : perform p q s = .next t) (port : Port) : account port t = account port s := by
  obtain ⟨r, hsent, hpend, hinputs⟩ := perform_outside h
  by_cases heq : port = p
  · subst heq
    simp only [account, due, hsent, hpend, hinputs, hp, PerPort.get_set_same, List.length_append,
      List.length_singleton, Option.isSome_none, Option.isSome_some, Bool.false_eq_true, if_true, if_false]
    omega
  · simp [account, due, hsent, hpend, hinputs, heq]

/-- Settles O53: a step moves a command from the inputs to its port, or performs a pending one, or uses up
an input that is no command. -/
theorem everyStepKeepsTheAccount : Obligations.EveryStepKeepsTheAccount := by
  intro s t hreset h port
  change account port t = account port s
  obtain ⟨rest, hin, -⟩ | ⟨p, r, rest, hin, hp, hstep⟩ | ⟨p, r, rest, q, -, hp, hstep⟩ |
    ⟨p, rest, hin, -, hstep⟩ | ⟨p, rest, q, hin, hp, hstep⟩ | ⟨-, -, hstep⟩ |
    ⟨-, p, q, d, hp, hstep⟩ := step_cases s
  · exact absurd (by rw [hin]; rfl) hreset
  all_goals rw [hstep] at h
  · cases h
    exact account_of_issue hin hp port
  · exact perform_account hp h port
  · cases h
    exact account_of_take hin port
  · calc account port t
      _ = account port { s with inputs := rest } := perform_account (s := { s with inputs := rest }) hp h port
      _ = account port s := account_of_take hin port
  · cases h
    rfl
  · exact perform_account (s := { s with draws := d }) hp h port

end Sys2Proof.Machine

/-! Family 40_ring_write: WRITE, from the room it makes (R81 to R88) to the packet it places (R79, R80, R89,
R90), and its errors (R82, R86). -/

namespace Sys2Proof.Machine

/-! ### The answers of WRITE -/

theorem raiseErr_fatal_eq (port : Port) (s : State) :
    raiseErr .fatal port s = answered port .errFatal [] [] { s with err := s.err ||| 8#32 } := rfl

theorem raiseErr_badSkip_eq (port : Port) (s : State) :
    raiseErr .badSkip port s = answered port .errSkip [] [] { s with err := s.err ||| 2#32 } := rfl

theorem exec_write_of_ready {len skip : Word} {data : List Byte} {s s1 s2 : State}
    (hlen : data.length = len.toNat) (hf : inFatal s = false) (hskip : skip.toNat ≤ len.toNat)
    (hroom : makeRoom len.toNat s = .ready s1) (hplace : placePacket len skip data s1 = .ok s2) :
    exec (.write len skip data) s = .next (answered .P .ok [] [] s2) := by
  rw [exec, execWrite, if_pos ((wellFormed_write ..).mpr hlen), hf, if_neg Bool.false_ne_true,
    if_neg (Nat.not_lt.mpr hskip), hroom]
  exact andThen_ok hplace

theorem exec_write_of_overCap {len skip : Word} {data : List Byte} {s : State}
    (hlen : data.length = len.toNat) (hf : inFatal s = false) (hskip : skip.toNat ≤ len.toNat)
    (hroom : makeRoom len.toNat s = .overCap) :
    exec (.write len skip data) s = .next (raiseErr .fatal .P s) := by
  rw [exec, execWrite, if_pos ((wellFormed_write ..).mpr hlen), hf, if_neg Bool.false_ne_true,
    if_neg (Nat.not_lt.mpr hskip), hroom]

/-- Settles O17: skip is checked before the room is looked at. -/
theorem writeWithBadSkip : Obligations.WriteWithBadSkip := by
  intro s len skip data hlen hf hskip
  rw [exec, execWrite, if_pos ((wellFormed_write ..).mpr hlen), hf, if_neg Bool.false_ne_true,
    if_pos hskip, raiseErr_badSkip_eq]

/-! ### The packet placed where it fits -/

/-- Settles O12: the packet fits at the head, so no room is made, and the two writes do not overlap. -/
theorem writeAtHead : Obligations.WriteAtHead := by
  intro s len skip data hlen hf hskip hspace hfit hcap
  have hroom := makeRoom_of_fits len.toNat s ((fits_iff ..).mpr ⟨hspace, .inl hfit⟩)
  have hplace := placePacket_head len skip data s hlen (decide_eq_true hfit) hcap
  refine ⟨_, exec_write_of_ready hlen hf hskip hroom hplace, fun a => ?_⟩
  rw [Memory.get_setBytes, Memory.get_setBytes, length_subHeader, hlen]
  by_cases hsub : s.wr ≤ a ∧ a < s.wr + 8
  · rw [if_neg (by omega), if_pos hsub, if_pos hsub, subHeader]
  · rw [if_neg hsub, if_neg hsub]

theorem spaceAtStart_of_wrapped {s : State} (hw : wrapped s = true) : spaceAtStart s = 0 := by
  rw [spaceAtStart, if_pos hw]

/-- Settles O13: room at the start means an unwrapped buffer, so the sub-header ends inside the store. -/
theorem writeAtStart : Obligations.WriteAtStart := by
  intro s len skip data hlen hf hskip hspace hhead hstart hrd
  have hw : wrapped s = false := by
    rw [Bool.eq_false_iff]
    intro hw
    have := spaceAtStart_of_wrapped hw
    omega
  have hroom := makeRoom_of_fits len.toNat s ((fits_iff ..).mpr ⟨hspace, .inr hstart⟩)
  simp only [spaceAtHead, spaceAtStart, hw, Bool.false_eq_true, if_false] at hspace hstart
  have hplace := placePacket_start len skip data s hlen (by simpa [headFit] using hhead)
    (by omega) (by omega)
  refine ⟨_, exec_write_of_ready hlen hf hskip hroom hplace, fun a => ?_⟩
  rw [Memory.get_setBytes, Memory.get_setBytes, length_subHeader, hlen]
  simp only [Nat.zero_le, true_and, Nat.zero_add, Nat.sub_zero, subHeader]

/-! ### The frame of WRITE -/

theorem putSubHeader_eq {len skip : Word} {s s' : State} (h : putSubHeader len skip s = .ok s') :
    s' = { s with store := s.store.setBytes s.wr (subHeader len skip), wr := s.wr + 8 } := by
  unfold putSubHeader at h
  split at h
  · next m hm =>
    cases h
    rw [((memWrite_eq_ok ..).mp hm).2]
  · cases h

theorem putAtHead_eq {data : List Byte} {s s' : State} (h : putAtHead data s = .ok s') :
    s' = { s with store := s.store.setBytes s.wr data, wr := s.wr + data.length } := by
  unfold putAtHead at h
  split at h
  · next m hm =>
    cases h
    rw [((memWrite_eq_ok ..).mp hm).2]
  · cases h

theorem putAtStart_eq {data : List Byte} {s s' : State} (h : putAtStart data s = .ok s') :
    s' = { s with store := s.store.setBytes 0 data, tb := s.wr, wr := data.length } := by
  unfold putAtStart at h
  split at h
  · next m hm =>
    cases h
    rw [((memWrite_eq_ok ..).mp hm).2]
  · cases h

/-- A placement that goes on leaves `placed`, in every state. -/
theorem eq_placed_of_placePacket {len skip : Word} {data : List Byte} {s s' : State}
    (hlen : data.length = len.toNat) (h : placePacket len skip data s = .ok s') :
    s' = placed len skip data s := by
  unfold placePacket at h
  split at h
  · next s1 h1 =>
    split at h
    · next s2 h2 =>
      cases h
      rw [putSubHeader_eq h1] at h2
      rw [placed]
      split_ifs at h2 ⊢
      · rw [putAtHead_eq h2, hlen]
      · rw [putAtStart_eq h2, hlen]
    · cases h
  · cases h

theorem get_placed_of_outside {len skip : Word} {data : List Byte} {s : State} {a : Nat}
    (hlen : data.length = len.toNat) (hsub : ¬ (s.wr ≤ a ∧ a < s.wr + 8))
    (hpay : ¬ ((if headFit len.toNat s then s.wr + 8 else 0) ≤ a ∧
      a < (if headFit len.toNat s then s.wr + 8 else 0) + len.toNat)) :
    (placed len skip data s).store.get a = s.store.get a := by
  rw [placed]
  split_ifs at hpay ⊢ <;>
    rw [Memory.get_setBytes, hlen, if_neg hpay, Memory.get_setBytes, length_subHeader, if_neg hsub]

/-- A placement keeps CAP, RD, the draw and the bytes outside the sub-header and the payload
(40_ring_write.md R79, R80, R89). -/
theorem placePacket_keeps {len skip : Word} {data : List Byte} {s s' : State}
    (hlen : data.length = len.toNat) (h : placePacket len skip data s = .ok s') :
    s'.cap = s.cap ∧ s'.rd = s.rd ∧ s'.fills = s.fills ∧
      ∀ a, ¬ (s.wr ≤ a ∧ a < s.wr + 8) →
        ¬ ((if headFit len.toNat s then s.wr + 8 else 0) ≤ a ∧
          a < (if headFit len.toNat s then s.wr + 8 else 0) + len.toNat) →
        storeByte s' a = storeByte s a ∧ s'.store.get a = s.store.get a := by
  obtain ⟨m, w, b, hframe⟩ := placePacket_frame h
  obtain rfl := eq_placed_of_placePacket hlen h
  refine ⟨by rw [hframe], by rw [hframe], by rw [hframe], fun a hsub hpay => ?_⟩
  have hget := get_placed_of_outside (skip := skip) hlen hsub hpay
  exact ⟨storeByte_congr hget (by rw [hframe]), hget⟩

/-- Bits 4 and up of ERR are reserved: no error sets them (10_state.md R22). -/
theorem getLsbD_errSet_of_le (e : ErrBit) (err : Word) {b : Nat} (hb : 4 ≤ b) :
    (errSet e err).getLsbD b = err.getLsbD b := by
  have hne : e.index ≠ b := by cases e <;> simp only [ErrBit.index] <;> omega
  simp [errSet, BitVec.getLsbD_twoPow, hne]

/-- Settles O19: an error changes ERR and the responses of P, and an OK writes only where `placed` does. -/
theorem writeFrame : Obligations.WriteFrame := by
  intro s t len skip data h
  obtain ⟨r, h⟩ := exec_answer h
  cases h with
  | raised i e =>
    exact ⟨rfl, rfl, rfl, rfl, rfl, rfl, rfl, rfl, fun port hp => PerPort.get_set_other _ _ hp,
      fun b hb => getLsbD_errSet_of_le e s.err hb, fun _ => ⟨rfl, rfl, rfl, fun a _ _ => ⟨rfl, rfl⟩⟩⟩
  | fatal i hf =>
    exact ⟨rfl, rfl, rfl, rfl, rfl, rfl, rfl, rfl, fun port hp => PerPort.get_set_other _ _ hp,
      fun _ _ => rfl, fun _ => ⟨rfl, rfl, rfl, fun a _ _ => ⟨rfl, rfl⟩⟩⟩
  | write hf hlen hskip hroom hplace =>
    have hkeeps := placePacket_keeps hlen hplace
    obtain ⟨c, r, w, b, m, f, rfl⟩ := writeOk_frame hroom hplace
    refine ⟨rfl, rfl, rfl, rfl, rfl, rfl, rfl, rfl, fun port hp => PerPort.get_set_other _ _ hp,
      fun _ _ => rfl, fun hfits => ?_⟩
    obtain rfl := Room.ready.inj ((makeRoom_of_fits _ _ hfits).symm.trans hroom)
    exact hkeeps

/-! ### The live bytes -/

/-- The live bytes of a ring, by number: the packets' bytes in order (10_state.md R30). -/
theorem Ring.liveByte_eq {s : State} {ps : List Packet} (h : Ring s ps) {a : Nat} (ha : a < live s) :
    liveByte s a = (flat ps)[a]? := by
  rw [h.liveBytes.2] at ha
  rw [liveByte]
  cases h with
  | straight hw hcnt hps hold hwr =>
    rw [hw, if_neg Bool.false_ne_true]
    exact hold.2 a ha
  | around pre k post hsplit hw hcnt hps tail htb hjump head hwr =>
    have hflat : flat ps = (flat pre ++ subHeader k.len k.skip) ++ (k.data ++ flat post) := by
      simp [hsplit, Packet.bytes]
    have htail : (flat pre ++ subHeader k.len k.skip).length = s.tb - s.rd := by simp; omega
    rw [hflat] at ha ⊢
    rw [hw, if_pos rfl, ← htail]
    split_ifs with hin
    · rw [tail.2 a hin, List.getElem?_append_left hin]
    · rw [List.length_append] at ha
      rw [List.getElem?_append_right (by omega), ← head.2 _ (by omega), Nat.zero_add]

/-- What STORE holds after a compaction: the live bytes at the front, and nothing else that a rule wrote. -/
theorem Ring.get_compacted {s : State} {ps : List Packet} (h : Ring s ps) (c f a : Nat) :
    (Compacted s ps c f).store.get a = if a < live s then liveByte s a else none := by
  show (Memory.ofBytes 0 (flat ps)).get a = _
  rw [Memory.get_ofBytes, h.liveBytes.2]
  simp only [Nat.zero_le, true_and, Nat.zero_add, Nat.sub_zero]
  split_ifs with ha
  · rw [h.liveByte_eq (by rwa [h.liveBytes.2])]
  · rfl

/-- Settles O21: a legal state is a ring of its packets, and a compaction leaves the same ring. -/
theorem compactionKeepsPackets : Obligations.CompactionKeepsPackets := by
  intro s c hs hc
  obtain ⟨ps, hring, hpkts⟩ := hs.ringLegal
  have hlive := hring.ringed.ring.liveBytes.2
  obtain ⟨hcompact, hw, hring'⟩ := hring.ringed.ring.compacted c hc
  exact ⟨_, hcompact, rfl, rfl, hlive.symm, rfl, rfl, rfl, hw, hring'.liveBytes.2.trans hlive.symm,
    hring'.layout.2.trans hpkts.symm, fun a => hring.ringed.ring.get_compacted c _ a⟩

/-! ### The room loop from a legal state -/

theorem growWanted_iff (len : Nat) (s : State) : growWanted len s = true ↔
    s.cap / 2 ≤ live s ∨ s.cap - live s < need len := by
  simp [growWanted]

/-- A packet that fits has its room beside the live bytes (40_ring_write.md R76). -/
theorem Ringed.room_of_fits {s : State} {ps : List Packet} {len : Nat} (h : Ringed s ps)
    (hfits : fits len s = true) : live s + need len ≤ s.cap := by
  obtain ⟨hspace, hroom⟩ := (fits_iff ..).mp hfits
  have hwr := h.wr_le
  have hrd := h.rd_le
  unfold need
  cases hw : wrapped s with
  | true =>
    have htb := h.tb hw
    simp only [live, spaceAtHead, spaceAtStart, hw, if_true] at hspace hroom ⊢
    omega
  | false =>
    have hempty := h.empty
    have hle : s.rd ≤ s.wr := by
      have := (wrapped_iff s).not.mp (by simp [hw])
      omega
    simp only [live, spaceAtHead, spaceAtStart, hw, Bool.false_eq_true, if_false] at hspace hroom ⊢
    omega

theorem RingLegal.one_le_cap {s : State} {ps : List Packet} (h : RingLegal s ps) : 1 ≤ s.cap := by
  obtain ⟨k, hk⟩ := h.grown
  rw [hk]
  exact Nat.mul_pos h.params.one_le_init (Nat.two_pow_pos k)

theorem RingLegal.compactRoom_eq {s : State} {ps : List Packet} (h : RingLegal s ps) {c : Nat}
    (hc : live s ≤ c) : compactRoom c s = .ready (Compacted s ps c (s.fills + 1)) := by
  rw [compactRoom, (h.ringed.ring.compacted c hc).1]

/-- The capacity after an iteration with room at the present one (40_ring_write.md R83, R86). -/
def thresholdCap (s : State) : Nat :=
  if s.cap / 2 ≤ live s ∧ admits s.params (2 * s.cap) = true then 2 * s.cap else s.cap

theorem le_thresholdCap (s : State) : s.cap ≤ thresholdCap s := by
  unfold thresholdCap
  split_ifs <;> omega

/-- With room at the present CAP one iteration is enough (40_ring_write.md R85). -/
theorem RingLegal.roomStep_of_room {s : State} {ps : List Packet} {len : Nat} (h : RingLegal s ps)
    (hroom : live s + need len ≤ s.cap) :
    Machine.roomStep len s = .ready (Compacted s ps (thresholdCap s) (s.fills + 1)) := by
  rw [← h.compactRoom_eq (by have := le_thresholdCap s; omega), Machine.roomStep, thresholdCap,
    if_pos (show need len ≤ s.cap - live s by omega)]
  simp only [Bool.and_eq_true, growWanted_iff, show ¬ s.cap - live s < need len by omega, or_false]
  split_ifs <;> rfl

/-- Without room at the present CAP an iteration doubles it, or raises FATAL (40_ring_write.md R84, R86). -/
theorem RingLegal.roomStep_of_no_room {s : State} {ps : List Packet} {len : Nat} (h : RingLegal s ps)
    (hno : s.cap < live s + need len) : Machine.roomStep len s =
      if admits s.params (2 * s.cap) then .ready (Compacted s ps (2 * s.cap) (s.fills + 1))
      else .overCap := by
  have hlive := h.ringed.live_le
  rw [← h.compactRoom_eq (by omega), Machine.roomStep,
    (growWanted_iff ..).mpr (.inr (by omega)), if_neg (show ¬ need len ≤ s.cap - live s by omega)]
  rfl

theorem roomLoop_of_fits {len : Nat} (fuel : Nat) {s : State} (h : fits len s = true) :
    roomLoop len fuel s = .ready s := by
  cases fuel <;> rw [roomLoop, if_pos h]

theorem RingLegal.makeRoom_of_room {s : State} {ps : List Packet} {len : Nat} (h : RingLegal s ps)
    (hfits : fits len s = false) (hroom : live s + need len ≤ s.cap) :
    makeRoom len s = .ready (Compacted s ps (thresholdCap s) (s.fills + 1)) := by
  have hle := le_thresholdCap s
  have hlive := h.ringed.ring.liveBytes.2
  have hw := (h.ringed.ring.compacted (thresholdCap s) (by omega)).2.1
  have hfits' := (fits_compacted (len := len) hw).mpr (by omega)
  rw [makeRoom, roomFuel, Machine.roomLoop, hfits, if_neg Bool.false_ne_true, h.roomStep_of_room hroom]
  exact roomLoop_of_fits _ hfits'

/-- Without room at the present CAP the loop runs as from the same packets already compacted. -/
theorem RingLegal.roomLoop_eq_compacted {s : State} {ps : List Packet} {len : Nat} (h : RingLegal s ps)
    (hno : s.cap < live s + need len) (fuel : Nat) :
    Machine.roomLoop len fuel s = Machine.roomLoop len fuel (Compacted s ps s.cap s.fills) := by
  have h' : RingLegal (Compacted s ps s.cap s.fills) ps :=
    (h.compacted h.ringed.live_le h.grown h.admitted).congr ⟨rfl, rfl, rfl, rfl, rfl, rfl⟩ rfl
  have hlive : live (Compacted s ps s.cap s.fills) = live s :=
    h'.ringed.ring.liveBytes.2.trans h.ringed.ring.liveBytes.2.symm
  have hno' : (Compacted s ps s.cap s.fills).cap < live (Compacted s ps s.cap s.fills) + need len := by
    rwa [hlive]
  have not_fits : ∀ {u : State}, RingLegal u ps → u.cap < live u + need len → ¬ fits len u = true :=
    fun hu hno hfits => by have := hu.ringed.room_of_fits hfits; omega
  cases fuel with
  | zero => rw [Machine.roomLoop, Machine.roomLoop, if_neg (not_fits h hno), if_neg (not_fits h' hno')]
  | succ fuel =>
    rw [Machine.roomLoop, Machine.roomLoop, if_neg (not_fits h hno), if_neg (not_fits h' hno'),
      h.roomStep_of_no_room hno, h'.roomStep_of_no_room hno']
    rfl

/-- Without room at the present CAP the loop ends at the least admitted doubling that makes room, or with
the growth past CAP_MAX (40_ring_write.md R85, R86). -/
theorem RingLegal.makeRoom_of_no_room {s : State} {ps : List Packet} {len : Nat} (h : RingLegal s ps)
    (hno : s.cap < live s + need len) :
    (∃ k, makeRoom len s = .ready (Compacted s ps (s.cap * 2 ^ k) (s.fills + k)) ∧
      live s + need len ≤ s.cap * 2 ^ k ∧ (∀ j < k, s.cap * 2 ^ j < live s + need len) ∧
      (k ≠ 0 → admits s.params (s.cap * 2 ^ k) = true)) ∨
    (makeRoom len s = .overCap ∧
      ∃ k, s.cap * 2 ^ k < live s + need len ∧ admits s.params (s.cap * 2 ^ (k + 1)) = false) := by
  have hfuel : live s + need len ≤ s.cap * 2 ^ roomFuel len s :=
    calc live s + need len
      _ ≤ 2 ^ roomFuel len s := (lt_two_pow_log2 _).le.trans
        (Nat.pow_le_pow_right two_pos (by simp [roomFuel]))
      _ ≤ s.cap * 2 ^ roomFuel len s := Nat.le_mul_of_pos_left _ h.one_le_cap
  rw [makeRoom, h.roomLoop_eq_compacted hno]
  exact roomLoop_compacted s ps len s.cap s.fills _ h.ringed.ring h.ringed.live_le h.one_le_cap hfuel

/-- The capacities a legal CAP can grow to are among those of CAPREACH (40_ring_write.md R86). -/
theorem RingLegal.roomReachable {s : State} {ps : List Packet} {len : Nat} (h : RingLegal s ps) {k : Nat}
    (hroom : live s + need len ≤ s.cap * 2 ^ k) (hadm : admits s.params (s.cap * 2 ^ k) = true) :
    RoomReachable len s := by
  obtain ⟨k0, hk0⟩ := h.grown
  rw [hk0, mul_assoc, ← pow_add] at hroom hadm
  exact ⟨k0 + k, hadm, hroom⟩

/-- A doubling without room whose successor is past CAP_MAX leaves no capacity with room. -/
theorem RingLegal.not_roomReachable {s : State} {ps : List Packet} {len k : Nat} (h : RingLegal s ps)
    (hno : s.cap * 2 ^ k < live s + need len) (hadm : admits s.params (s.cap * 2 ^ (k + 1)) = false) :
    ¬ RoomReachable len s := by
  rintro ⟨j, hj, hroom⟩
  obtain ⟨k0, hk0⟩ := h.grown
  rw [hk0, mul_assoc, ← pow_add] at hno hadm
  have hlt : k0 + k < j :=
    (Nat.pow_lt_pow_iff_right one_lt_two).mp (lt_of_mul_lt_mul_left' (hno.trans_le hroom))
  have hle : s.params.initCapacity * 2 ^ (k0 + (k + 1)) ≤ s.params.initCapacity * 2 ^ j :=
    Nat.mul_le_mul_left _ (Nat.pow_le_pow_right two_pos hlt)
  exact Bool.false_ne_true (hadm.symm.trans (admits_mono hle hj))

theorem RingLegal.makeRoom_grown {s : State} {ps : List Packet} {len : Nat} (h : RingLegal s ps)
    (hno : s.cap < live s + need len) (hreach : RoomReachable len s) :
    ∃ k, makeRoom len s = .ready (Compacted s ps (s.cap * 2 ^ k) (s.fills + k)) ∧
      live s + need len ≤ s.cap * 2 ^ k ∧ ∀ j < k, s.cap * 2 ^ j < live s + need len := by
  obtain ⟨k, hready, hroom, hleast, -⟩ | ⟨-, k, hlt, hadm⟩ := h.makeRoom_of_no_room hno
  · exact ⟨k, hready, hroom, hleast⟩
  · exact absurd hreach (h.not_roomReachable hlt hadm)

theorem RingLegal.makeRoom_overCap {s : State} {ps : List Packet} {len : Nat} (h : RingLegal s ps)
    (hreach : ¬ RoomReachable len s) : makeRoom len s = .overCap := by
  have hno : s.cap < live s + need len := by
    by_contra hroom
    exact hreach (h.roomReachable (k := 0) (by omega) (by simpa using h.admitted))
  obtain ⟨k, -, hroom, -, hadm⟩ | ⟨hover, -⟩ := h.makeRoom_of_no_room hno
  · have hk : k ≠ 0 := by
      rintro rfl
      omega
    exact absurd (h.roomReachable hroom (hadm hk)) hreach
  · exact hover

/-- The room loop makes room whenever some capacity has it (40_ring_write.md R86). -/
theorem RingLegal.makeRoom_ready {s : State} {ps : List Packet} {len : Nat} (h : RingLegal s ps)
    (hreach : RoomReachable len s) : ∃ s1, makeRoom len s = .ready s1 := by
  by_cases hfits : fits len s = true
  · exact ⟨s, makeRoom_of_fits len s hfits⟩
  by_cases hroom : live s + need len ≤ s.cap
  · exact ⟨_, h.makeRoom_of_room (Bool.eq_false_iff.mpr hfits) hroom⟩
  · obtain ⟨k, hready, -⟩ := h.makeRoom_grown (by omega) hreach
    exact ⟨_, hready⟩

/-- Settles O20: the loop makes room where some capacity has it, and passes CAP_MAX otherwise. -/
theorem roomLoopEnds : Obligations.RoomLoopEnds := by
  intro s len hs
  obtain ⟨ps, hring, -⟩ := hs.ringLegal
  by_cases hreach : RoomReachable len s
  · obtain ⟨s1, hready⟩ := hring.makeRoom_ready hreach
    exact .inr ⟨s1, hready, (roomLoop_ready hready).1⟩
  · exact .inl (hring.makeRoom_overCap hreach)

/-- Settles O15: the room loop passes CAP_MAX, and FATAL is raised on the state the WRITE began with. -/
theorem writePastCapMaxIsFatal : Obligations.WritePastCapMaxIsFatal := by
  intro s len skip data hs hlen hf hskip hreach
  obtain ⟨ps, hring, -⟩ := hs.ringLegal
  rw [exec_write_of_overCap hlen hf hskip (hring.makeRoom_overCap hreach), raiseErr_fatal_eq]

/-! ### The packet placed after room was made -/

/-- In a compacted store a packet that fits is placed after the live bytes. -/
theorem Ring.placePacket_compacted {s : State} {ps : List Packet} (h : Ring s ps) {len skip : Word}
    {data : List Byte} (hlen : data.length = len.toNat) {c f : Nat}
    (hroom : live s + need len.toNat ≤ c) :
    placePacket len skip data (Compacted s ps c f) = .ok { s with
      cap := c
      store := ((Memory.ofBytes 0 (flat ps)).setBytes (live s) (subHeader len skip)).setBytes (live s + 8) data
      fills := f
      rd := 0
      wr := live s + 8 + len.toNat
      cnt := s.cnt + 1 } := by
  have hlive := h.liveBytes.2
  have hw : wrapped (Compacted s ps c f) = false := (h.compacted c (by omega)).2.1
  have hneed : len.toNat + 8 ≤ need len.toNat := le_max_right ..
  have hhead : headFit len.toNat (Compacted s ps c f) = true := by
    rw [headFit, spaceAtHead, hw, if_neg Bool.false_ne_true, decide_eq_true_eq]
    show _ ≤ c - (flat ps).length
    omega
  have hcap : (flat ps).length + 8 + len.toNat ≤ c := by omega
  rw [placePacket_head len skip data _ hlen hhead hcap, hlive]
  rfl

/-- A WRITE whose room loop leaves a compacted store with room: its result, and every byte of STORE. -/
theorem Ring.exec_write_compacted {s : State} {ps : List Packet} (h : Ring s ps) {len skip : Word}
    {data : List Byte} {c f : Nat} (hlen : data.length = len.toNat) (hf : inFatal s = false)
    (hskip : skip.toNat ≤ len.toNat) (hroom : live s + need len.toNat ≤ c)
    (hready : makeRoom len.toNat s = .ready (Compacted s ps c f)) :
    ∃ m, exec (.write len skip data) s = .next (answered .P .ok [] [] { s with
        cap := c, store := m, fills := f, rd := 0, wr := live s + 8 + len.toNat, cnt := s.cnt + 1 }) ∧
      ∀ a, m.get a =
        if a < live s then liveByte s a
        else if a < live s + 8 then (be32bytes len ++ be32bytes skip)[a - live s]?
        else if a < live s + 8 + len.toNat then data[a - (live s + 8)]?
        else none := by
  refine ⟨_, exec_write_of_ready hlen hf hskip hready (h.placePacket_compacted hlen hroom), fun a => ?_⟩
  have hlive : (Memory.ofBytes 0 (flat ps)).get a = _ := h.get_compacted c f a
  rw [Memory.get_setBytes, Memory.get_setBytes, hlive, length_subHeader, hlen, subHeader]
  by_cases hin : a < live s
  · rw [if_neg (by omega), if_neg (by omega), if_pos hin, if_pos hin]
  rw [if_neg hin, if_neg hin]
  by_cases hsub : a < live s + 8
  · rw [if_neg (by omega), if_pos (by omega), if_pos hsub]
  rw [if_neg hsub]
  by_cases hdata : a < live s + 8 + len.toNat
  · rw [if_pos (by omega), if_pos hdata]
  · rw [if_neg (by omega), if_neg (by omega), if_neg hdata]

/-- Settles O14: the room loop leaves a compacted store of a capacity that depends on whether the present
one has room, and the packet goes after the live bytes. -/
theorem writeAfterMakingRoom : Obligations.WriteAfterMakingRoom := by
  intro s len skip data hs hlen hf hskip hfits hreach
  obtain ⟨ps, hring, -⟩ := hs.ringLegal
  by_cases hroom : live s + need len.toNat ≤ s.cap
  · obtain ⟨m, hexec, hget⟩ := hring.ringed.ring.exec_write_compacted hlen hf hskip
      (hroom.trans (le_thresholdCap s)) (hring.makeRoom_of_room hfits hroom)
    exact ⟨m, _, _, hexec, Nat.lt_succ_self _, hget, fun _ => rfl, fun hno => absurd hroom hno.not_ge⟩
  · obtain ⟨k, hready, hroom', hleast⟩ := hring.makeRoom_grown (by omega) hreach
    obtain ⟨m, hexec, hget⟩ := hring.ringed.ring.exec_write_compacted hlen hf hskip hroom' hready
    have hk : k ≠ 0 := by
      rintro rfl
      omega
    exact ⟨m, _, _, hexec, by omega, hget, fun h => absurd h hroom, fun _ => ⟨k, rfl, hroom', hleast⟩⟩

/-! ### The packet queue after WRITE -/

/-- A WRITE for which some capacity has room answers OK and appends its packet to the ring. -/
theorem RingLegal.exec_write {s : State} {ps : List Packet} (h : RingLegal s ps) {len skip : Word}
    {data : List Byte} (hlen : data.length = len.toNat) (hf : inFatal s = false)
    (hskip : skip.toNat ≤ len.toNat) (hreach : RoomReachable len.toNat s) :
    ∃ t, exec (.write len skip data) s = .next (answered .P .ok [] [] t) ∧ t.cnt = s.cnt + 1 ∧
      t.err = s.err ∧ RingLegal t (ps ++ [⟨len, skip, data⟩]) := by
  obtain ⟨s1, hready⟩ := h.makeRoom_ready hreach
  have hfits := (roomLoop_ready hready).1
  have h1 := h.roomLoop hready
  have hplace := h1.ringed.placePacket_eq (skip := skip) hlen hfits
  obtain ⟨c, r, w, b, m, f, hs2⟩ := writeOk_frame hready hplace
  exact ⟨_, exec_write_of_ready hlen hf hskip hready hplace, by rw [hs2], by rw [hs2],
    h1.placed hlen hskip hfits⟩

theorem lastResponse_answered (port : Port) (code : RspCode) (rargs : List Word) (rdata : List Byte)
    (s : State) : lastResponse port (answered port code rargs rdata s) = some ⟨code, rargs, rdata⟩ := by
  simp [lastResponse, answered]

theorem RingLegal.answered {s : State} {ps : List Packet} (h : RingLegal s ps) (port : Port)
    (code : RspCode) (rargs : List Word) (rdata : List Byte) :
    RingLegal (answered port code rargs rdata s) ps :=
  h.congr ⟨rfl, rfl, rfl, rfl, rfl, rfl⟩ rfl

/-- With CAP_MAX = infinity some capacity has room for every payload (00_scope.md R8). -/
theorem roomReachable_of_unbounded {s : State} (hs : s.params.Legal) (hmax : s.params.capMax = none)
    (len : Nat) : RoomReachable len s := by
  refine ⟨live s + need len, by simp [admits, hmax], ?_⟩
  calc live s + need len
    _ ≤ 2 ^ (live s + need len) := Nat.lt_two_pow_self.le
    _ ≤ s.params.initCapacity * 2 ^ (live s + need len) := Nat.le_mul_of_pos_left _ hs.one_le_init

/-- Settles O16: every payload has a capacity with room, so the WRITE appends its packet. -/
theorem unboundedWriteAlwaysStores : Obligations.UnboundedWriteAlwaysStores := by
  intro s len skip data hs hmax hlen hf hskip
  obtain ⟨ps, hring, hpkts⟩ := hs.ringLegal
  obtain ⟨t, hexec, hcnt, herr, ht⟩ :=
    hring.exec_write hlen hf hskip (roomReachable_of_unbounded hs.params hmax _)
  exact ⟨_, hexec, lastResponse_answered .., hcnt, herr, ps, hpkts, (ht.answered ..).pkts⟩

/-- Settles O50: after the WRITE its packet is the ring's only one, and READ takes the first packet. -/
theorem writeThenReadReturnsThePayload : Obligations.WriteThenReadReturnsThePayload := by
  intro s len skip data hs hf hcnt hlen hskip hreach
  obtain ⟨ps, hring, -⟩ := hs.ringLegal
  obtain rfl : ps = [] := List.length_eq_zero_iff.mp (hring.ringed.ring.cnt_eq.symm.trans hcnt)
  obtain ⟨t, hexec, -, herr, ht⟩ := hring.exec_write hlen hf hskip hreach
  have hringed := (ht.answered .P .ok [] []).ringed
  have hf' : inFatal (Machine.answered .P .ok [] [] t) = false := by
    rw [← hf]
    simp only [inFatal, errBit, Machine.answered, herr]
  have hread := hringed.ring.execRead_eq hf'
  have hcnt' := hringed.afterRead.ring.cnt_eq
  exact ⟨_, _, hexec, hread, lastResponse_answered .., hcnt', hringed.afterRead.empty hcnt'⟩

end Sys2Proof.Machine

/-! Family 41_ring_read: READ of an empty buffer (R94), READ by its sub-header (R95 to R98), and what the
commands that store no packet leave unchanged (R99). -/

namespace Sys2Proof.Machine

/-! ### The answers of READ -/

theorem raiseErr_emptyRead_eq (port : Port) (s : State) :
    raiseErr .emptyRead port s = answered port .errEmpty [] [] { s with err := s.err ||| 1#32 } := rfl

/-- Settles O22: FATAL is looked at first, and then CNT. -/
theorem emptyReadIsReported : Obligations.EmptyReadIsReported := by
  intro s hf hcnt
  rw [exec, execRead, hf, if_neg Bool.false_ne_true, if_pos ((empty_iff s).mpr hcnt), raiseErr_emptyRead_eq]

/-- Outside FATAL and with a packet, READ answers what its two reads of STORE give (41_ring_read.md R95). -/
theorem exec_read_of_reads {s : State} {len skip : Word} {view : List Byte} (hf : inFatal s = false)
    (hcnt : 0 < s.cnt) (hskip : skip.toNat ≤ len.toNat) (hsub : readSubHeader s.rd s = .ok (len, skip))
    (hview : memRead (payloadStart s.rd len.toNat s + skip.toNat) (len.toNat - skip.toNat) s = .ok view) :
    exec .read s = .next (answered .C .ok [len - skip] view
      { s with rd := payloadStart s.rd len.toNat s + len.toNat, cnt := s.cnt - 1 }) := by
  have hempty : ¬ empty s = true := fun he => hcnt.ne' ((empty_iff s).mp he)
  rw [exec, execRead, hf, if_neg Bool.false_ne_true, if_neg hempty, andThen_ok hsub]
  dsimp only
  rw [if_neg (Nat.not_lt.mpr hskip), andThen_ok hview, respondOk_eq]

/-- Settles O23: both reads are inside the store, and the payload starts at `payloadStart`. -/
theorem readFollowsItsSubHeader : Obligations.ReadFollowsItsSubHeader := by
  intro s len skip view hf hcnt hskip hsubIn hsub start hstart hin hlen hview
  obtain rfl : start = payloadStart s.rd len.toNat s := hstart
  have hreadSub := (readSubHeader_eq_ok s.rd s len skip).mpr ⟨hsubIn, hsub⟩
  rw [hlen] at hview
  have hreadView := (memRead_eq_ok _ _ s view).mpr ⟨by omega, hlen, hview⟩
  exact exec_read_of_reads hf hcnt hskip hreadSub hreadView

/-! ### READ takes the oldest packet -/

/-- RD after a READ: past the payload, which starts after its sub-header or, after a jump, at offset 0
(41_ring_read.md R96, R99). -/
theorem payloadStart_add (h len : Nat) (s : State) :
    payloadStart h len s + len = if s.cap < h + 8 + len then len else h + 8 + len := by
  by_cases hjump : s.cap < h + 8 + len
  · rw [payloadStart_of_lt hjump, if_pos hjump, Nat.zero_add]
  · rw [payloadStart_of_le (Nat.not_lt.mp hjump), if_neg hjump]

theorem afterRead_eq (p : Packet) (s : State) : afterRead p s = { s with
    rd := if s.cap < s.rd + 8 + p.len.toNat then p.len.toNat else s.rd + 8 + p.len.toNat
    cnt := s.cnt - 1 } := by
  rw [afterRead, payloadStart_add]

/-- Settles O24: READ on a ring answers its first packet and leaves the ring of the others. -/
theorem readReturnsTheOldestPacket : Obligations.ReadReturnsTheOldestPacket := by
  intro s hs hf hcnt
  obtain ⟨ps, hring, hpkts⟩ := hs.ringLegal
  cases ps with
  | nil => exact absurd hring.ringed.ring.cnt_eq hcnt.ne'
  | cons p ps =>
    have hrest : Ringed (afterRead p s) ps := hring.ringed.afterRead
    have hsame : SameRing (afterRead p s)
        (answered .C .ok [p.len - p.skip] (p.data.drop p.skip.toNat) (afterRead p s)) :=
      ⟨rfl, rfl, rfl, rfl, rfl, rfl⟩
    refine ⟨p, ps, _, hpkts, ?_, hring.ringed.ring.execRead_eq hf, (hrest.congr hsame).ring.layout.2⟩
    rw [respondOk_eq, afterRead_eq]

/-! ### The commands that store no packet -/

/-- Only WRITE writes STORE, its draw, CAP or TB. -/
theorem ExecAnswer.store_of_ne_write {i : Instr} {s t : State} {r : Response} (h : ExecAnswer s i r t)
    (hwrite : ∀ len skip data, i ≠ .write len skip data) :
    t.store = s.store ∧ t.fills = s.fills ∧ t.cap = s.cap ∧ t.tb = s.tb := by
  cases h with
  | write => exact absurd rfl (hwrite _ _ _)
  | decode => simp [respondOk]
  | _ => exact ⟨rfl, rfl, rfl, rfl⟩

/-- Only WRITE and CLEAR write WR. -/
theorem ExecAnswer.wr_of_ne_write {i : Instr} {s t : State} {r : Response} (h : ExecAnswer s i r t)
    (hwrite : ∀ len skip data, i ≠ .write len skip data) (hclear : i ≠ .clear) : t.wr = s.wr := by
  cases h with
  | write => exact absurd rfl (hwrite _ _ _)
  | clear => exact absurd rfl hclear
  | decode => simp [respondOk]
  | _ => rfl

/-- Only WRITE, READ and CLEAR write RD or CNT. -/
theorem ExecAnswer.rd_cnt_of_ne_write {i : Instr} {s t : State} {r : Response} (h : ExecAnswer s i r t)
    (hwrite : ∀ len skip data, i ≠ .write len skip data) (hread : i ≠ .read) (hclear : i ≠ .clear) :
    t.rd = s.rd ∧ t.cnt = s.cnt := by
  cases h with
  | write => exact absurd rfl (hwrite _ _ _)
  | read => exact absurd rfl hread
  | clear => exact absurd rfl hclear
  | decode => simp [respondOk]
  | _ => exact ⟨rfl, rfl⟩

/-- Settles O39, register by register; a byte of STORE follows the store and its draw. -/
theorem nonWritingCommandsKeepStore : Obligations.NonWritingCommandsKeepStore := by
  intro s t i h hwrite
  obtain ⟨r, ha⟩ := exec_answer h
  obtain ⟨hstore, hfills, hcap, htb⟩ := ha.store_of_ne_write hwrite
  refine ⟨hstore, hfills, fun a => storeByte_congr (by rw [hstore]) hfills, hcap, htb, ?_, ?_⟩
  · rintro rfl
    exact ha.wr_of_ne_write hwrite (by decide)
  · intro hread hclear
    obtain ⟨hrd, hcnt⟩ := ha.rd_cnt_of_ne_write hwrite hread hclear
    exact ⟨hrd, ha.wr_of_ne_write hwrite hclear, hcnt⟩

end Sys2Proof.Machine

/-! Family 42_ring_control: QUERY answers CNT and ERR (R102), CLEAR drops the packets and the three errors
outside FATAL (R105), and a second CLEAR adds nothing (R106). -/

namespace Sys2Proof.Machine

/-! ### QUERY -/

/-- A CNT below 2^32 is the number its response word shows (30_encoding.md R66). -/
theorem toNat_cntWord {cnt : Nat} (h : cnt < 4294967296) : (cntWord cnt).toNat = cnt := by
  rw [cntWord, if_pos h, BitVec.toNat_ofNat, Nat.mod_eq_of_lt h]

theorem exec_query_of_ne_H {port : Port} (hport : port ≠ .H) (s : State) :
    exec (.query port) s = .next (answered port .ok [cntWord s.cnt, s.err] [] s) := by
  rw [exec, execQuery, if_pos ((wellFormed_query port).mpr hport), respondOk_eq]

/-- QUERY on port H is the ill-formed QUERY (30_encoding.md R72). -/
theorem exec_query_H (s : State) :
    exec (.query .H) s = .next (answered .H .errIllegal [] [] { s with err := s.err ||| 4#32 }) := by
  have hill : ¬ (Instr.query .H).wellFormed = true := fun h => (wellFormed_query .H).mp h rfl
  rw [exec, execQuery, if_neg hill, raiseErr_illegal_eq]

/-- Settles O25: the request is the encoding of QUERY on the three ports that may issue it, and the count
word of the answer is `cntWord`. -/
theorem queryAnswersCountAndErrors : Obligations.QueryAnswersCountAndErrors :=
  ⟨fun port hport => decodeOfEncodeIsTheCommand (.query port) ((wellFormed_query port).mpr hport), rfl,
    fun s => ⟨fun _ hport => ⟨cntWord s.cnt, toNat_cntWord, exec_query_of_ne_H hport s⟩, exec_query_H s⟩⟩

/-! ### CLEAR and ERR -/

/-- CLEAR's mask has bits 0 to 2 (42_ring_control.md R105). -/
theorem getLsbD_clearMask (b : Nat) : (7#32).getLsbD b = decide (b < 3) := by
  rw [BitVec.getLsbD_ofNat, show 7 = 2 ^ 3 - 1 by rfl, Nat.testBit_two_pow_sub_one]
  by_cases hb : b < 3
  · simp [hb, Nat.lt_trans hb (by decide : 3 < 32)]
  · simp [hb]

/-- CLEAR zeroes bits 0 to 2 of ERR and keeps the others (42_ring_control.md R105). -/
theorem getLsbD_errClear (err : Word) (b : Nat) :
    (errClear err).getLsbD b = if b < 3 then false else err.getLsbD b := by
  rw [errClear, BitVec.getLsbD_and, BitVec.getLsbD_not, getLsbD_clearMask]
  by_cases hb : b < 3
  · simp [hb]
  · by_cases hword : b < 32
    · simp [hb, hword]
    · simp [hb, BitVec.getLsbD_of_ge err b (Nat.not_lt.mp hword)]

@[simp] theorem errClear_errClear (err : Word) : errClear (errClear err) = errClear err := by
  rw [errClear, errClear, BitVec.and_assoc, BitVec.and_self]

/-! ### CLEAR and the ring -/

/-- What CLEAR makes of the state outside FATAL, its answer aside (42_ring_control.md R105;
`exec_clear_of_not_inFatal`). -/
def cleared (s : State) : State := { s with cnt := 0, rd := 0, wr := 0, err := errClear s.err }

@[simp] theorem cleared_cleared (s : State) : cleared (cleared s) = cleared s := by
  simp only [cleared, errClear_errClear]

/-- ERR.FATAL is not among the bits that CLEAR zeroes. -/
@[simp] theorem inFatal_cleared (s : State) : inFatal (cleared s) = inFatal s :=
  getLsbD_errClear s.err 3

@[simp] theorem inFatal_answered (port : Port) (code : RspCode) (rargs : List Word) (rdata : List Byte)
    (s : State) : inFatal (answered port code rargs rdata s) = inFatal s := rfl

theorem cleared_answered (port : Port) (code : RspCode) (rargs : List Word) (rdata : List Byte) (s : State) :
    cleared (answered port code rargs rdata s) = answered port code rargs rdata (cleared s) := rfl

theorem exec_clear_of_not_inFatal {s : State} (hf : inFatal s = false) :
    exec .clear s = .next (answered .K .ok [] [] (cleared s)) := by
  rw [exec, execClear, hf, if_neg Bool.false_ne_true, respondOk_eq, cleared]

theorem exec_clear_of_inFatal {s : State} (hf : inFatal s = true) :
    exec .clear s = .next (answered .K .errFatal [] [] s) := by
  rw [exec, execClear, if_pos hf, respondErr_eq]

/-- A CNT of 0 is the empty packet queue, whatever STORE holds (10_state.md R38). -/
theorem pkts_of_cnt_eq_zero {s : State} (h : s.cnt = 0) : pkts s = some [] := by
  simp only [pkts, h, slotsFrom, packetsOf]

/-- Settles O26: CLEAR is `cleared` outside FATAL, bit by bit in ERR, and with CNT = 0 the queue is empty. -/
theorem clearDropsEveryPacket : Obligations.ClearDropsEveryPacket := fun s =>
  ⟨fun hf => ⟨errClear s.err, _, rfl, exec_clear_of_not_inFatal hf, pkts_of_cnt_eq_zero rfl,
    getLsbD_errClear s.err⟩, exec_clear_of_inFatal⟩

/-- Settles O27: CLEAR keeps FATAL, so the second one takes the same branch, and `cleared` is idempotent. -/
theorem clearIsIdempotent : Obligations.ClearIsIdempotent := by
  intro s t h
  cases hf : inFatal s with
  | false =>
    obtain rfl := Host.Outcome.next.inj ((exec_clear_of_not_inFatal hf).symm.trans h)
    refine ⟨.ok, ?_⟩
    rw [exec_clear_of_not_inFatal (by rw [inFatal_answered, inFatal_cleared, hf]), cleared_answered,
      cleared_cleared]
  | true =>
    obtain rfl := Host.Outcome.next.inj ((exec_clear_of_inFatal hf).symm.trans h)
    exact ⟨.errFatal, exec_clear_of_inFatal hf⟩

end Sys2Proof.Machine

/-! Family 43_header_decode: a 16-byte window is four little-endian words (R109), the three checks of DECODE
in their order (R111 to R114), the result of a good header (R116), and when a header is VALID (R117, R118). -/

namespace Sys2Proof.Machine

/-! ### The window -/

/-- The window of a header with these four fields (43_header_decode.md R109; `exists_headerWindow`). -/
def headerWindow (magic length type ck : Word) : List Byte :=
  le32bytes magic ++ le32bytes length ++ le32bytes type ++ le32bytes ck

section HeaderWindow
variable (magic length type ck : Word)

@[simp] theorem length_headerWindow : (headerWindow magic length type ck).length = 16 := rfl

@[simp] theorem winField_headerWindow_magic : winField (headerWindow magic length type ck) 0 = magic :=
  le32_le32bytes magic

@[simp] theorem winField_headerWindow_length : winField (headerWindow magic length type ck) 4 = length :=
  le32_le32bytes length

@[simp] theorem winField_headerWindow_type : winField (headerWindow magic length type ck) 8 = type :=
  le32_le32bytes type

@[simp] theorem winField_headerWindow_ck : winField (headerWindow magic length type ck) 12 = ck :=
  le32_le32bytes ck

@[simp] theorem take_headerWindow : (headerWindow magic length type ck).take 4 = le32bytes magic := rfl

@[simp] theorem take_drop_headerWindow :
    ((headerWindow magic length type ck).drop 8).take 4 = le32bytes type := rfl

@[simp] theorem drop_headerWindow : (headerWindow magic length type ck).drop 12 = le32bytes ck := rfl

end HeaderWindow

/-- Every four bytes are the `le32bytes` of their le32 (00_scope.md R12). -/
theorem le32bytes_le32 (b0 b1 b2 b3 : Byte) : le32bytes (le32 b0 b1 b2 b3) = [b0, b1, b2, b3] := by
  have h0 := b0.isLt
  have h1 := b1.isLt
  have h2 := b2.isLt
  have h3 := b3.isLt
  simp only [le32bytes, le32, BitVec.toNat_ofNat, List.cons.injEq, and_true]
  refine ⟨?_, ?_, ?_, ?_⟩ <;> (apply BitVec.eq_of_toNat_eq; simp only [BitVec.toNat_ofNat]; omega)

/-- A little-endian word can be taken off the front of any four bytes or more. -/
theorem exists_le32bytes_append {l : List Byte} {n : Nat} (h : l.length = n + 4) :
    ∃ v rest, rest.length = n ∧ l = le32bytes v ++ rest :=
  match l, h with
  | b0 :: b1 :: b2 :: b3 :: rest, h =>
    ⟨le32 b0 b1 b2 b3, rest, by simpa using h, by rw [le32bytes_le32]; rfl⟩

theorem exists_headerWindow {win : List Byte} (hwin : win.length = 16) :
    ∃ magic length type ck, win = headerWindow magic length type ck := by
  obtain ⟨magic, afterMagic, h12, rfl⟩ := exists_le32bytes_append hwin
  obtain ⟨length, afterLength, h8, rfl⟩ := exists_le32bytes_append h12
  obtain ⟨type, afterType, h4, rfl⟩ := exists_le32bytes_append h8
  obtain ⟨ck, afterCk, h0, rfl⟩ := exists_le32bytes_append h4
  obtain rfl := List.eq_nil_of_length_eq_zero h0
  exact ⟨magic, length, type, ck, by simp [headerWindow]⟩

/-- Settles O5: four words are taken off the window, one after the other. -/
theorem windowIsFourWords : Obligations.WindowIsFourWords := fun _ => exists_headerWindow

/-! ### The three checks -/

/-- The checksum that passes is the complement of the type (43_header_decode.md R114). -/
theorem xor_checksumMask (type : Word) : type ^^^ 0xFFFFFFFF#32 = ~~~type := BitVec.xor_allOnes

theorem validate_of_wrong_size {size : Word} (hsize : size ≠ 16#32) (win : List Byte) (s : State) :
    validate size win s = hdrFail .malformedHeader .size size s :=
  if_pos hsize

section Validate
variable {magic ck : Word} (length type : Word) (s : State)

theorem validate_of_wrong_magic (hmagic : magic ≠ Config.magic) :
    validate 16#32 (headerWindow magic length type ck) s = hdrFail .unrecognizedStream .magic magic s := by
  simp [validate, hmagic]

theorem validate_of_wrong_checksum (hck : ck ≠ ~~~type) :
    validate 16#32 (headerWindow Config.magic length type ck) s =
      hdrFail .malformedHeader .checksum ck s := by
  simp [validate, xor_checksumMask, hck]

theorem validate_of_good_header :
    validate 16#32 (headerWindow Config.magic length type (~~~type)) s = hdrPass length type s := by
  simp [validate, xor_checksumMask]

end Validate

/-! ### The answer -/

/-- A DECODE answers the registers that its checks write (43_header_decode.md R119). -/
theorem exec_decode_of_validate {size : Word} {win : List Byte} {s t : State} (hwin : win.length = 16)
    (h : validate size win s = t) :
    exec (.decode size win) s = .next (answered .H .ok (hdrWords t) [] t) := by
  rw [exec_decode_of_length hwin, decoded, h, respondOk_eq]

/-- HDR_RESULT of a header that passes (43_header_decode.md R116, R117). -/
theorem hdrResultWord_valid (type : Word) :
    hdrResultWord .valid .none (type == Config.videoType) = if type = 6#32 then 0x11#32 else 0x01#32 := by
  by_cases hvideo : type = 6#32 <;> simp [hdrResultWord, HdrKind.code, HdrCause.code, hvideo]

/-- Settles O28: the size check comes first and fails. -/
theorem decodeRejectsWrongSize : Obligations.DecodeRejectsWrongSize := fun s _ win hwin hsize =>
  exec_decode_of_validate hwin (validate_of_wrong_size hsize win s)

/-- Settles O29: the size check passes and the magic check fails. -/
theorem decodeRejectsWrongMagic : Obligations.DecodeRejectsWrongMagic :=
  fun s _ length type _ hmagic =>
    exec_decode_of_validate (length_headerWindow ..) (validate_of_wrong_magic length type s hmagic)

/-- Settles O30: the size and magic checks pass and the checksum check fails. -/
theorem decodeRejectsWrongChecksum : Obligations.DecodeRejectsWrongChecksum := fun s length type _ hck =>
  exec_decode_of_validate (length_headerWindow ..) (validate_of_wrong_checksum length type s hck)

/-- Settles O31: the three checks pass. -/
theorem decodeAcceptsEveryGoodHeader : Obligations.DecodeAcceptsEveryGoodHeader := by
  intro s length type
  rw [← hdrResultWord_valid]
  exact exec_decode_of_validate (length_headerWindow ..) (validate_of_good_header length type s)

/-! ### When a header is VALID -/

/-- Bits 1:0 of HDR_RESULT (10_state.md R24). -/
theorem kind_hdrResultWord (kind : HdrKind) (cause : HdrCause) (video : Bool) :
    (hdrResultWord kind cause video).extractLsb' 0 2 = BitVec.ofNat 2 kind.code := by
  cases kind <;> cases cause <;> cases video <;> decide

/-- Bit 4 of HDR_RESULT (10_state.md R24). -/
theorem video_hdrResultWord (kind : HdrKind) (cause : HdrCause) (video : Bool) :
    (hdrResultWord kind cause video).getLsbD 4 = video := by
  cases kind <;> cases cause <;> cases video <;> decide

section Result
variable (kind : HdrKind) (cause : HdrCause) (info length type : Word) (s : State)

@[simp] theorem hdrKind_hdrFail : hdrKind (hdrFail kind cause info s) = BitVec.ofNat 2 kind.code :=
  kind_hdrResultWord kind cause false

@[simp] theorem isVideo_hdrFail : isVideo (hdrFail kind cause info s) = false :=
  video_hdrResultWord kind cause false

@[simp] theorem hdrKind_hdrPass : hdrKind (hdrPass length type s) = 1#2 :=
  kind_hdrResultWord .valid .none (type == Config.videoType)

@[simp] theorem isVideo_hdrPass : isVideo (hdrPass length type s) = (type == Config.videoType) :=
  video_hdrResultWord .valid .none (type == Config.videoType)

end Result

/-- KIND and IS_VIDEO by the fields: the checks that a VALID header passes are all there are
(43_header_decode.md R117, R118). -/
theorem validate_valid_iff (size magic length type ck : Word) (s : State) :
    (hdrKind (validate size (headerWindow magic length type ck) s) = 1#2 ↔
      size = 16#32 ∧ magic = Config.magic ∧ ck = ~~~type) ∧
    (isVideo (validate size (headerWindow magic length type ck) s) = true ↔
      hdrKind (validate size (headerWindow magic length type ck) s) = 1#2 ∧ type = 6#32) := by
  by_cases hsize : size = 16#32
  case neg => simp [validate_of_wrong_size hsize, hsize, HdrKind.code]
  subst hsize
  by_cases hmagic : magic = Config.magic
  case neg => simp [validate_of_wrong_magic length type s hmagic, hmagic, HdrKind.code]
  subst hmagic
  by_cases hck : ck = ~~~type
  case neg => simp [validate_of_wrong_checksum length type s hck, hck, HdrKind.code]
  subst hck
  simp [validate_of_good_header]

/-! ### The fields as bytes -/

/-- Two words with the same little-endian bytes are the same word. -/
theorem le32bytes_inj {v w : Word} : le32bytes v = le32bytes w ↔ v = w := by
  refine ⟨fun h => ?_, congrArg le32bytes⟩
  have hfield : winField (le32bytes v) 0 = winField (le32bytes w) 0 := by rw [h]
  exact (le32_le32bytes v).symm.trans (hfield.trans (le32_le32bytes w))

/-- The complement of a word is the complement of each of its bytes. -/
theorem le32bytes_not (v : Word) : le32bytes (~~~v) = (le32bytes v).map fun b => ~~~b := by
  have := v.isLt
  simp only [le32bytes, List.map_cons, List.map_nil, List.cons.injEq, and_true]
  refine ⟨?_, ?_, ?_, ?_⟩ <;>
    (apply BitVec.eq_of_toNat_eq; simp only [BitVec.toNat_ofNat, BitVec.toNat_not]; omega)

/-- Settles O32: `validate_valid_iff`, with the fields of the window read as their bytes. -/
theorem headerIsValidIff : Obligations.HeaderIsValidIff := by
  intro s t size win hwin h
  obtain ⟨magic, length, type, ck, rfl⟩ := exists_headerWindow hwin
  obtain rfl := Host.Outcome.next.inj ((exec_decode_of_length hwin s).symm.trans h)
  have hmagic : [0xAA#8, 0x55#8, 0xAA#8, 0x55#8] = le32bytes Config.magic := rfl
  have hvideo : [6#8, 0#8, 0#8, 0#8] = le32bytes Config.videoType := rfl
  rw [take_headerWindow, take_drop_headerWindow, drop_headerWindow, ← le32bytes_not, hmagic, hvideo,
    le32bytes_inj, le32bytes_inj, le32bytes_inj]
  exact validate_valid_iff size magic length type ck s

end Sys2Proof.Machine

/-! Family 60_exceptions: an error changes its ERR bit alone (R126), the FATAL state (R124, R125), and every
pending command performed and answered, whatever order the arbiter takes the ports in (R138, R139). -/

namespace Sys2Proof.Machine

/-! ### Errors -/

/-- In the FATAL state ERR.FATAL is set already, so raising it is answering ERR_FATAL (60_exceptions.md
R124, R126). -/
theorem respondErr_errFatal_eq_raiseErr {s : State} (hf : inFatal s = true) (port : Port) :
    respondErr port .errFatal s = raiseErr .fatal port s := by
  have herr : errSet .fatal s.err = s.err := by
    refine BitVec.eq_of_getLsbD_eq fun b hb => ?_
    rw [errSet, BitVec.getLsbD_or, BitVec.getLsbD_twoPow]
    by_cases hb3 : ErrBit.fatal.index = b
    · subst hb3
      have hbit : s.err.getLsbD ErrBit.fatal.index = true := hf
      simp [hbit]
    · simp [hb3]
  rw [raiseErr_eq, herr, respondErr_eq, ErrBit.code]

/-- A command that answers an error has raised it on the state it began with (60_exceptions.md R126). -/
theorem ExecAnswer.eq_raiseErr {i : Instr} {s t : State} {r : Response} (h : ExecAnswer s i r t)
    (hr : r.code ≠ .ok) : ∃ e : ErrBit, r.code = e.code ∧ t = raiseErr e i.port s := by
  cases h with
  | raised i e => exact ⟨e, rfl, rfl⟩
  | fatal i hf => exact ⟨.fatal, rfl, respondErr_errFatal_eq_raiseErr hf i.port⟩
  | write | read | query | clear | decode => exact absurd rfl hr

/-- A pending transaction that answers an error, an illegal one among them, has raised it and is no longer
pending (30_encoding.md R70, 60_exceptions.md R126). -/
theorem perform_eq_raiseErr {port : Port} {q : Request} {r : Response} {s t : State}
    (h : perform port q s = .next t) (hsent : t.sent.get port = s.sent.get port ++ [r])
    (hr : r.code ≠ .ok) :
    ∃ e : ErrBit, r.code = e.code ∧ t = raiseErr e port { s with pend := s.pend.set port none } := by
  cases hdec : decode port q with
  | ok i =>
    rw [perform_of_decode s hdec] at h
    obtain ⟨-, rfl, -⟩ := decode_eq_ok_iff_encode.mp hdec
    exact (exec_answer_of_sent h hsent).eq_raiseErr hr
  | error e =>
    rw [perform_of_illegal s hdec] at h
    cases h
    obtain rfl : ⟨ErrBit.illegal.code, [], []⟩ = r := by simpa using hsent
    exact ⟨.illegal, rfl, rfl⟩

/-- The bit of an error is the one its code word numbers (10_state.md R22, 30_encoding.md R67). -/
theorem ErrBit.index_eq (e : ErrBit) : e.index = e.code.word.toNat - 1 := by cases e <;> rfl

/-- Raising an error sets the bit of its code and no other; in the FATAL state ERR_FATAL sets none. -/
theorem raiseErr_precise (e : ErrBit) (port : Port) (s : State) :
    raiseErr e port s = answered port e.code [] []
      { s with err := s.err ||| BitVec.twoPow 32 (e.code.word.toNat - 1) } ∧
    (e.code = .errFatal → inFatal s = true → (raiseErr e port s).err = s.err) := by
  refine ⟨by rw [raiseErr_eq, errSet, e.index_eq], fun hcode hf => ?_⟩
  cases e with
  | fatal => rw [← respondErr_errFatal_eq_raiseErr hf, respondErr, respond_err]
  | emptyRead | badSkip | illegal => cases hcode

/-- Settles O35: every error answered is one raised, by a command or by an illegal transaction. -/
theorem errorsArePrecise : Obligations.ErrorsArePrecise := by
  constructor
  · intro s t i r h hsent hr
    obtain ⟨e, hcode, rfl⟩ := (exec_answer_of_sent h hsent).eq_raiseErr hr
    rw [hcode]
    exact raiseErr_precise e i.port s
  · intro s t port q r h hsent hr
    obtain ⟨e, hcode, rfl⟩ := perform_eq_raiseErr h hsent hr
    rw [hcode]
    exact raiseErr_precise e port { s with pend := s.pend.set port none }

/-! ### The FATAL state -/

theorem exec_write_of_inFatal {len skip : Word} {data : List Byte} {s : State}
    (hlen : data.length = len.toNat) (hf : inFatal s = true) :
    exec (.write len skip data) s = .next (answered .P .errFatal [] [] s) := by
  rw [exec, execWrite, if_pos ((wellFormed_write ..).mpr hlen), if_pos hf, respondErr_eq]

theorem exec_read_of_inFatal {s : State} (hf : inFatal s = true) :
    exec .read s = .next (answered .C .errFatal [] [] s) := by
  rw [exec, execRead, if_pos hf, respondErr_eq]

/-- Settles O34: each of the three looks at FATAL before all else, WRITE once its length is right. -/
theorem fatalStateAnswersFatal : Obligations.FatalStateAnswersFatal := by
  rintro s i hf hwf (⟨len, skip, data, rfl⟩ | rfl | rfl)
  · exact exec_write_of_inFatal ((wellFormed_write ..).mp hwf) hf
  · exact exec_read_of_inFatal hf
  · exact exec_clear_of_inFatal hf

/-! ### The arbiter -/

/-- With no input left a pending port is performed, or the run is over (60_exceptions.md R138,
70_reset_and_hazards.md R155). -/
theorem step_of_inputs_nil {s : State} (hin : s.inputs = []) :
    (pendingPorts s = [] ∧ step s = .next s) ∨
    ∃ port q d, s.pend.get port = some q ∧ step s = perform port q { s with draws := d } := by
  obtain ⟨_, hcons, -⟩ | ⟨_, _, _, hcons, -⟩ | ⟨_, _, _, _, hcons, -⟩ | ⟨_, _, hcons, -⟩ |
    ⟨_, _, _, hcons, -⟩ | ⟨-, hover⟩ | ⟨-, hperform⟩ := step_cases s
  case inr.inr.inr.inr.inr.inl => exact .inl hover
  case inr.inr.inr.inr.inr.inr => exact .inr hperform
  all_goals cases hin.symm.trans hcons

/-- Settles O9: a named port is performed by `step_of_take`, and with a port pending the run is not over. -/
theorem anyPendingPortCanBeNext : Obligations.AnyPendingPortCanBeNext := by
  refine ⟨fun s port q rest hp => step_of_take rfl hp, fun s port hin hport => ?_⟩
  obtain ⟨hnone, -⟩ | hperform := step_of_inputs_nil hin
  · rw [hnone] at hport
    cases hport
  · exact hperform

/-! ### What a step does to the inputs, the pending commands and the responses -/

/-- Everything a step but a hard reset can do outside the RBU and the HVU: nothing, because the run is over;
make an offered command pending; use up the name of a port with nothing pending; or perform a pending
command, named by the next input or, when the next input is no name, by the model (log entry 4). -/
inductive OutsideStep (s : State) : State → Prop
  | finished (h : RunOver s) : OutsideStep s s
  | offered {port : Port} {q : Request} {rest : List Input} (hin : s.inputs = .issue port q :: rest)
      (hp : s.pend.get port = none) :
      OutsideStep s { s with inputs := rest, pend := s.pend.set port (some q) }
  | nothingToTake {port : Port} {rest : List Input} (hin : s.inputs = .take port :: rest) :
      OutsideStep s { s with inputs := rest }
  | performed {port : Port} {q : Request} {r : Response} {t : State} (hp : s.pend.get port = some q)
      (hpend : t.pend = s.pend.set port none) (hsent : t.sent = s.sent.set port (s.sent.get port ++ [r]))
      (hin : (t.inputs = s.inputs ∧ (s.inputs = [] ∨ ∃ q' rest, s.inputs = .issue port q' :: rest)) ∨
        s.inputs = .take port :: t.inputs) : OutsideStep s t

theorem step_outside {s t : State} (hreset : s.inputs.head? ≠ some .hardReset) (h : step s = .next t) :
    OutsideStep s t := by
  obtain ⟨rest, hin, -⟩ | ⟨port, q, rest, hin, hp, hstep⟩ | ⟨port, q', rest, q, hin, hp, hstep⟩ |
    ⟨port, rest, hin, -, hstep⟩ | ⟨port, rest, q, hin, hp, hstep⟩ | ⟨hin, hnone, hstep⟩ |
    ⟨hin, port, q, d, hp, hstep⟩ := step_cases s
  · exact absurd (by rw [hin]; rfl) hreset
  all_goals rw [hstep] at h
  · cases h
    exact .offered hin hp
  · obtain ⟨r, hsent, hpend, hinputs⟩ := perform_outside h
    exact .performed hp hpend hsent (.inl ⟨hinputs, .inr ⟨q', rest, hin⟩⟩)
  · cases h
    exact .nothingToTake hin
  · obtain ⟨r, hsent, hpend, hinputs⟩ := perform_outside h
    exact .performed hp hpend hsent (.inr (by rw [hin, hinputs]))
  · cases h
    exact .finished ⟨hin, hnone⟩
  · obtain ⟨r, hsent, hpend, hinputs⟩ := perform_outside h
    exact .performed hp hpend hsent (.inl ⟨hinputs, .inl hin⟩)

theorem head_ne_hardReset {l : List Input} (h : .hardReset ∉ l) : l.head? ≠ some .hardReset :=
  fun hhead => h (List.mem_of_head? hhead)

/-- A step uses inputs up from the front and adds none. -/
theorem OutsideStep.inputs_suffix {s t : State} (h : OutsideStep s t) : t.inputs <:+ s.inputs := by
  cases h with
  | finished => exact List.suffix_refl _
  | offered hin | nothingToTake hin =>
    rw [hin]
    exact List.suffix_cons ..
  | performed hp hpend hsent hin =>
    obtain ⟨hsame, -⟩ | htake := hin
    · rw [hsame]
    · rw [htake]
      exact List.suffix_cons ..

/-! ### The steps a run still needs -/

/-- A bound on the steps until the run is over: two for each input, which may have to wait for its port, and
one for each pending command. -/
def outstanding (s : State) : Nat := 2 * s.inputs.length + (pendingPorts s).length

theorem runOver_of_outstanding_eq_zero {s : State} (h : outstanding s = 0) : RunOver s := by
  unfold outstanding at h
  exact ⟨List.eq_nil_of_length_eq_zero (by omega), List.eq_nil_of_length_eq_zero (by omega)⟩

theorem RunOver.outstanding_eq {s : State} (h : RunOver s) : outstanding s = 0 := by
  rw [outstanding, h.1, h.2]
  rfl

theorem length_pendingPorts_le (s : State) : (pendingPorts s).length ≤ 4 := List.length_filter_le ..

theorem pendingPorts_congr {s t : State} (h : t.pend = s.pend) : pendingPorts t = pendingPorts s := by
  rw [pendingPorts, h, pendingPorts]

/-- The number of pending ports, port by port. -/
theorem length_pendingPorts_eq (s : State) :
    (pendingPorts s).length = s.pend.p.isSome.toNat + s.pend.c.isSome.toNat + s.pend.k.isSome.toNat +
      s.pend.h.isSome.toNat := by
  rw [pendingPorts, ← List.countP_eq_length_filter]
  simp only [List.countP_cons, List.countP_nil, PerPort.get, Bool.toNat, Bool.cond_eq_ite]
  omega

/-- Replacing what is pending on one port counts on that port only. -/
theorem length_pendingPorts_set {s t : State} {port : Port} {x : Option Request}
    (h : t.pend = s.pend.set port x) :
    (pendingPorts t).length + (s.pend.get port).isSome.toNat =
      (pendingPorts s).length + x.isSome.toNat := by
  rw [length_pendingPorts_eq, length_pendingPorts_eq, h]
  cases port <;> simp only [PerPort.set, PerPort.get] <;> omega

/-- Every step comes closer to the end of the run, or the run is over. -/
theorem OutsideStep.outstanding_le {s t : State} (h : OutsideStep s t) :
    outstanding t ≤ outstanding s - 1 := by
  cases h with
  | finished hover => simp [hover.outstanding_eq]
  | @offered port q rest hin hp =>
    have hcount := length_pendingPorts_set (s := s) (x := some q)
      (t := { s with inputs := rest, pend := s.pend.set port (some q) }) rfl
    rw [hp] at hcount
    simp only [Option.isSome_none, Option.isSome_some, Bool.toNat_false, Bool.toNat_true] at hcount
    simp only [outstanding, hin, List.length_cons]
    omega
  | @nothingToTake port rest hin =>
    have hsame : pendingPorts { s with inputs := rest } = pendingPorts s := pendingPorts_congr rfl
    simp only [outstanding, hin, hsame, List.length_cons]
    omega
  | performed hp hpend hsent hin =>
    have hcount := length_pendingPorts_set hpend
    rw [hp] at hcount
    simp only [Option.isSome_none, Option.isSome_some, Bool.toNat_false, Bool.toNat_true] at hcount
    have hle : t.inputs.length ≤ s.inputs.length :=
      (OutsideStep.performed hp hpend hsent hin).inputs_suffix.length_le
    unfold outstanding
    omega

/-! ### A legal state always steps -/

/-- A WRITE term of the wrong length is the ill-formed WRITE (30_encoding.md R70). -/
theorem exec_write_of_wrong_length {len skip : Word} {data : List Byte} (hlen : data.length ≠ len.toNat)
    (s : State) : exec (.write len skip data) s = .next (raiseErr .illegal .P s) := by
  rw [exec, execWrite, if_neg fun hwf => hlen ((wellFormed_write ..).mp hwf)]

/-- Every command's rule ends in a legal state, with no access outside the store (70_reset_and_hazards.md
R156, 00_scope.md R13). -/
theorem LegalState.exists_exec {s : State} (hs : LegalState s) (i : Instr) :
    ∃ t, Machine.exec i s = .next t := by
  obtain ⟨ps, hring, -⟩ := hs.ringLegal
  cases i with
  | write len skip data =>
    by_cases hlen : data.length = len.toNat
    case neg => exact ⟨_, exec_write_of_wrong_length hlen s⟩
    cases hf : inFatal s with
    | true => exact ⟨_, exec_write_of_inFatal hlen hf⟩
    | false =>
      by_cases hskip : skip.toNat ≤ len.toNat
      case neg => exact ⟨_, writeWithBadSkip s len skip data hlen hf (Nat.not_le.mp hskip)⟩
      obtain hover | ⟨s1, hready, hfits⟩ := roomLoopEnds s len.toNat hs
      · exact ⟨_, exec_write_of_overCap hlen hf hskip hover⟩
      · have hplace := (hring.roomLoop hready).ringed.placePacket_eq (skip := skip) hlen hfits
        exact ⟨_, exec_write_of_ready hlen hf hskip hready hplace⟩
  | read =>
    cases hf : inFatal s with
    | true => exact ⟨_, exec_read_of_inFatal hf⟩
    | false =>
      cases ps with
      | nil => exact ⟨_, emptyReadIsReported s hf hring.ringed.ring.cnt_eq⟩
      | cons p ps => exact ⟨_, hring.ringed.ring.execRead_eq hf⟩
  | query port =>
    by_cases hport : port = .H
    · subst hport
      exact ⟨_, exec_query_H s⟩
    · exact ⟨_, exec_query_of_ne_H hport s⟩
  | clear =>
    cases hf : inFatal s with
    | true => exact ⟨_, exec_clear_of_inFatal hf⟩
    | false => exact ⟨_, exec_clear_of_not_inFatal hf⟩
  | decode size win =>
    by_cases hwin : win.length = 16
    · exact ⟨_, exec_decode_of_length hwin s⟩
    · exact ⟨_, decodeWithWrongWindowIsIllegal s size win hwin⟩

theorem LegalState.exists_perform {s : State} (hs : LegalState s) (port : Port) (q : Request) :
    ∃ t, Machine.perform port q s = .next t := by
  cases hdec : Sys2Proof.decode port q with
  | ok i =>
    rw [perform_of_decode s hdec]
    exact (hs.withOutside (s.pend.set port none) s.sent s.inputs s.draws).exists_exec i
  | error e => exact ⟨_, perform_of_illegal s hdec⟩

theorem LegalState.exists_step {s : State} (hs : LegalState s) : ∃ t, step s = .next t := by
  obtain ⟨rest, -, hstep⟩ | ⟨port, q, rest, -, -, hstep⟩ | ⟨port, -, -, q, -, -, hstep⟩ |
    ⟨-, rest, -, -, hstep⟩ | ⟨port, rest, q, -, -, hstep⟩ | ⟨-, -, hstep⟩ |
    ⟨-, port, q, d, -, hstep⟩ := step_cases s
  case inr.inr.inl =>
    rw [hstep]
    exact hs.exists_perform port q
  case inr.inr.inr.inr.inl =>
    rw [hstep]
    exact (hs.withOutside s.pend s.sent rest s.draws).exists_perform port q
  case inr.inr.inr.inr.inr.inr =>
    rw [hstep]
    exact (hs.withOutside s.pend s.sent s.inputs d).exists_perform port q
  all_goals exact ⟨_, hstep⟩

/-! ### A finite run ends with every command answered -/

theorem run_succ_of_step {s u : State} (k : Nat) (h : step s = .next u) :
    Host.Core.run core (k + 1) s = Host.Core.run core k u := by
  have h' : core.step s = .next u := h
  simp only [Host.Core.run, h']

theorem LegalState.run_ends {k : Nat} {s : State} (hs : LegalState s) (hreset : .hardReset ∉ s.inputs)
    (hk : outstanding s ≤ k) :
    ∃ t, Host.Core.run core k s = .next t ∧ RunOver t ∧ LegalState t ∧
      ∀ port, account port t = account port s := by
  induction k generalizing s with
  | zero => exact ⟨s, rfl, runOver_of_outstanding_eq_zero (Nat.le_zero.mp hk), hs, fun _ => rfl⟩
  | succ k ih =>
    obtain ⟨u, hstep⟩ := hs.exists_step
    have hout := step_outside (head_ne_hardReset hreset) hstep
    have hless := hout.outstanding_le
    obtain ⟨t, hrun, hover, ht, hacc⟩ := ih (stepKeepsLegalState s u hs hstep)
      (fun hmem => hreset (hout.inputs_suffix.subset hmem)) (by omega)
    refine ⟨t, (run_succ_of_step k hstep).trans hrun, hover, ht, fun port => ?_⟩
    exact (hacc port).trans (everyStepKeepsTheAccount s u (head_ne_hardReset hreset) hstep port)

/-- At the end of a run nothing is due. -/
theorem RunOver.account_eq {s : State} (h : RunOver s) (port : Port) :
    account port s = (s.sent.get port).length := by
  obtain ⟨hin, hnone⟩ := h
  have hp : s.pend.get port = none := by
    refine Option.eq_none_iff_forall_not_mem.mpr fun q hq => ?_
    have hmem := (mem_pendingPorts s port).mpr ⟨q, hq⟩
    rw [hnone] at hmem
    cases hmem
  simp [account, due, hin, hp]

/-- Settles O51: `outstanding` falls with every step, the account of each port stays, and at the end of the
run it is the responses received. -/
theorem everyIssuedCommandIsAnswered : Obligations.EveryIssuedCommandIsAnswered := by
  intro s hs hreset
  have hpending := length_pendingPorts_le s
  obtain ⟨t, hrun, hover, ht, hacc⟩ := hs.run_ends (k := 2 * s.inputs.length + 4) hreset
    (Nat.add_le_add_left hpending _)
  refine ⟨t, hrun, hover, ht, fun port => ?_⟩
  calc (t.sent.get port).length
    _ = account port t := (hover.account_eq port).symm
    _ = account port s := hacc port

/-! ### A fair endless run answers every command -/

/-- The commands a port has taken in: those answered, and the pending one. -/
def accepted (port : Port) (s : State) : Nat :=
  (s.sent.get port).length + if (s.pend.get port).isSome then 1 else 0

/-- This input is a command offered on `port`. -/
def Input.offers (port : Port) : Input → Bool
  | .issue p _ => p == port
  | _ => false

/-- The commands still to be issued on a port are those offered by the inputs. -/
theorem account_eq (port : Port) (s : State) :
    account port s = accepted port s + s.inputs.countP (Input.offers port) := by
  rw [accepted, Nat.add_assoc, List.countP_eq_length_filter]
  rfl

/-- Without a hard reset no command that a port has taken in is lost. -/
theorem OutsideStep.accepted_le {s t : State} (h : OutsideStep s t) (port : Port) :
    accepted port s ≤ accepted port t := by
  cases h with
  | finished | nothingToTake => exact le_rfl
  | @offered p q rest hin hp =>
    by_cases heq : port = p
    · subst heq
      simp [accepted, hp]
    · simp [accepted, heq]
  | @performed p q r _ hp hpend hsent hin =>
    by_cases heq : port = p
    · subst heq
      simp [accepted, hp, hpend, hsent]
    · simp [accepted, hpend, hsent, heq]

/-- An input used up by a step is taken in by its port where it is a command. -/
theorem accepted_of_input_used {s t : State} {x : Input} (hreset : .hardReset ∉ s.inputs)
    (hstep : step s = .next t) (hin : s.inputs = x :: t.inputs) (port : Port) :
    accepted port t = accepted port s + [x].countP (Input.offers port) := by
  have hacc : account port t = account port s :=
    everyStepKeepsTheAccount s t (head_ne_hardReset hreset) hstep port
  rw [account_eq, account_eq, hin, ← List.singleton_append, List.countP_append] at hacc
  omega

/-- A step uses up the next input, or leaves it waiting (30_encoding.md R71). -/
theorem OutsideStep.inputs_cons {s t : State} {x : Input} {rest : List Input} (h : OutsideStep s t)
    (hin : s.inputs = x :: rest) : t.inputs = rest ∨ t.inputs = s.inputs := by
  cases h with
  | finished hover => exact .inr rfl
  | offered hin' | nothingToTake hin' => exact .inl (List.cons.inj (hin'.symm.trans hin)).2
  | performed hp hpend hsent hin' =>
    obtain ⟨hsame, -⟩ | htake := hin'
    · exact .inr hsame
    · exact .inl (List.cons.inj (htake.symm.trans hin)).2

/-- The state after more inputs have joined. -/
def State.join (s : State) (l : List Input) : State := { s with inputs := s.inputs ++ l }

section IsRun
variable {more : Nat → List Input} {run : Nat → State} (hrun : IsRun more run)
  (hreset : .hardReset ∉ (run 0).inputs) (hmore : ∀ n, .hardReset ∉ more n)
include hrun hreset hmore

theorem IsRun.hardReset_notMem_join (n : Nat) : .hardReset ∉ ((run n).join (more n)).inputs := by
  suffices h : .hardReset ∉ (run n).inputs from List.not_mem_append h (hmore n)
  induction n with
  | zero => exact hreset
  | succ n ih =>
    have hjoin : .hardReset ∉ ((run n).join (more n)).inputs := List.not_mem_append ih (hmore n)
    exact fun hmem => hjoin ((step_outside (head_ne_hardReset hjoin) (hrun n)).inputs_suffix.subset hmem)

theorem IsRun.outsideStep (n : Nat) : OutsideStep ((run n).join (more n)) (run (n + 1)) :=
  step_outside (head_ne_hardReset (hrun.hardReset_notMem_join hreset hmore n)) (hrun n)

theorem IsRun.accepted_mono (port : Port) : Monotone fun n => accepted port (run n) :=
  monotone_nat_of_le_succ fun n => (hrun.outsideStep hreset hmore n).accepted_le port

/-- The inputs at hand, `pre` first, are all used up in time: the steps they still need, two for each and one
for each pending command, become fewer whatever joins after them. -/
theorem IsRun.takes_in {k n : Nat} {pre later : List Input} (hin : (run n).inputs = pre ++ later)
    (hk : 2 * pre.length + (pendingPorts (run n)).length ≤ k) (port : Port) :
    ∃ m, n ≤ m ∧ accepted port (run n) + pre.countP (Input.offers port) ≤ accepted port (run m) := by
  induction k generalizing n pre later with
  | zero =>
    obtain rfl : pre = [] := List.eq_nil_of_length_eq_zero (by omega)
    exact ⟨n, le_rfl, le_rfl⟩
  | succ k ih =>
    cases pre with
    | nil => exact ⟨n, le_rfl, le_rfl⟩
    | cons x pre =>
      have hjoin : ((run n).join (more n)).inputs = x :: (pre ++ (later ++ more n)) := by
        simp [State.join, hin]
      have hout := hrun.outsideStep hreset hmore n
      have hless := hout.outstanding_le
      have hpending : pendingPorts ((run n).join (more n)) = pendingPorts (run n) := pendingPorts_congr rfl
      obtain hused | hwaits := hout.inputs_cons hjoin
      · have hacc := accepted_of_input_used (hrun.hardReset_notMem_join hreset hmore n) (hrun n)
          (hjoin.trans (by rw [hused])) port
        simp only [outstanding, hused, hjoin, hpending, List.length_cons] at hless hk
        obtain ⟨m, hm, hle⟩ := ih hused (by omega)
        refine ⟨m, by omega, ?_⟩
        rw [← List.singleton_append, List.countP_append, ← Nat.add_assoc]
        exact hacc ▸ hle
      · have hacc : accepted port (run n) ≤ accepted port (run (n + 1)) := hout.accepted_le port
        simp only [outstanding, hwaits, hjoin, hpending, List.length_cons] at hless hk
        obtain ⟨m, hm, hle⟩ := ih (pre := x :: pre) (hwaits.trans hjoin) (by rw [List.length_cons]; omega)
        exact ⟨m, by omega, by omega⟩

end IsRun

/-- Where nothing is pending, every command taken in has been answered. -/
theorem accepted_of_not_pending {s : State} {port : Port} (hp : s.pend.get port = none) :
    accepted port s = (s.sent.get port).length := by
  rw [accepted, hp]
  rfl

theorem Fair.exists_not_pending {run : Nat → State} (hfair : Fair run) (m : Nat) (port : Port) :
    ∃ m', m ≤ m' ∧ (run m').pend.get port = none := by
  cases hp : (run m).pend.get port with
  | none => exact ⟨m, le_rfl, hp⟩
  | some q =>
    obtain ⟨m', hm', hnone⟩ := hfair m port (by rw [hp]; rfl)
    exact ⟨m', hm'.le, hnone⟩

/-- Settles O54: the inputs at hand are taken in without any fairness, and by fairness there is a later time
with nothing pending on the port, when all that it has taken in is answered. -/
theorem fairRunsAnswerEveryCommand : Obligations.FairRunsAnswerEveryCommand := by
  intro more run hrun hfair hreset hmore n port
  obtain ⟨m, hnm, htaken⟩ := hrun.takes_in hreset hmore (List.append_nil _).symm le_rfl port
  obtain ⟨m', hmm', hnone⟩ := hfair.exists_not_pending m port
  refine ⟨m', hnm.trans hmm', ?_⟩
  calc account port (run n)
    _ = accepted port (run n) + (run n).inputs.countP (Input.offers port) := account_eq port (run n)
    _ ≤ accepted port (run m) := htaken
    _ ≤ accepted port (run m') := hrun.accepted_mono hreset hmore port hmm'
    _ = ((run m').sent.get port).length := accepted_of_not_pending hnone

end Sys2Proof.Machine

/-! Family 70_reset_and_hazards: hard reset (R142, R143) and the FATAL state that it alone ends (R146), WRITE
data of the wrong length (R149), the end of a run (R155), and a next state for every legal one (R156). -/

namespace Sys2Proof.Machine

/-! ### Hard reset -/

theorem step_of_hardReset {s : State} {rest : List Input} (hin : s.inputs = .hardReset :: rest) :
    step s = .next (hardReset { s with inputs := rest }) := by
  simp only [step, stepOnce, hin]

/-- Settles O11: the step is `hardReset`, whose state has its registers and its empty store by definition,
and with CNT = 0 it holds no packet. -/
theorem hardResetValues : Obligations.HardResetValues := by
  intro s rest hin
  have hpend : ∀ port, (hardReset { s with inputs := rest }).pend.get port = none := by
    intro port
    cases port <;> rfl
  exact ⟨_, step_of_hardReset hin, rfl, rfl, rfl, rfl, rfl, rfl, rfl, rfl, rfl, rfl, hpend, fun _ => rfl,
    rfl, pkts_of_cnt_eq_zero rfl, rfl, rfl, rfl⟩

/-- How often STORE's unspecified bytes have been drawn is no part of legality. -/
theorem LegalState.redrawn {s : State} (hs : LegalState s) (f : Nat) : LegalState (s.redrawn f) := by
  obtain ⟨ps, hring, -⟩ := hs.ringLegal
  have hring' : RingLegal (s.redrawn f) ps := hring.congr ⟨rfl, rfl, rfl, rfl, rfl, rfl⟩ rfl
  exact hring'.legalState hs.err (hs.hdr.congr rfl)

/-- The reset state is a hard reset of itself, but for the draw that the hard reset counts. -/
theorem resetWith_eq_hardReset_redrawn (params : Params) :
    State.resetWith params = (hardReset (State.resetWith params)).redrawn 0 := rfl

theorem resetWith_legalState {params : Params} (hp : params.Legal) : LegalState (State.resetWith params) := by
  rw [resetWith_eq_hardReset_redrawn]
  exact (hardReset_legalState (s := State.resetWith params) hp).redrawn 0

/-- The parameters of the model's reset state are legal (log entry 1). -/
theorem reset_params_legal : State.reset.params.Legal where
  one_le_init := by decide
  init_le_max m hm := by cases hm; decide
  max_le m hm := by cases hm; decide

/-- Settles O45: the state after hard reset is legal for legal parameters, and the model's own are. -/
theorem resetIsLegal : Obligations.ResetIsLegal :=
  ⟨fun _ hp => resetWith_legalState hp, resetWith_legalState reset_params_legal⟩

/-! ### The FATAL state under every step but a hard reset -/

/-- `t` is in the FATAL state, with the ring registers and STORE of `s` (70_reset_and_hazards.md R146). -/
def FatalKept (s t : State) : Prop :=
  inFatal t = true ∧ t.cap = s.cap ∧ t.rd = s.rd ∧ t.wr = s.wr ∧ t.tb = s.tb ∧ t.cnt = s.cnt ∧
    t.store = s.store ∧ t.fills = s.fills

theorem fatalKept_refl {s : State} (hf : inFatal s = true) : FatalKept s s :=
  ⟨hf, rfl, rfl, rfl, rfl, rfl, rfl, rfl⟩

/-- Raising an error clears no bit of ERR, FATAL among them (10_state.md R22). -/
theorem inFatal_raiseErr {s : State} (hf : inFatal s = true) (e : ErrBit) (port : Port) :
    inFatal (raiseErr e port s) = true := by
  have hbit : s.err.getLsbD ErrBit.fatal.index = true := hf
  rw [inFatal, errBit, raiseErr_err, errSet, BitVec.getLsbD_or, hbit, Bool.true_or]

theorem fatalKept_raiseErr {s : State} (hf : inFatal s = true) (e : ErrBit) (port : Port) :
    FatalKept s (raiseErr e port s) :=
  ⟨inFatal_raiseErr hf e port, rfl, rfl, rfl, rfl, rfl, rfl, rfl⟩

/-- The commands that would change the ring answer an error in the FATAL state, QUERY changes nothing, and
DECODE only the HVU registers (60_exceptions.md R124, R125). -/
theorem ExecAnswer.fatalKept {i : Instr} {r : Response} {s t : State} (h : ExecAnswer s i r t)
    (hf : inFatal s = true) : FatalKept s t := by
  cases h with
  | raised i e => exact fatalKept_raiseErr hf e i.port
  | fatal | query => exact fatalKept_refl hf
  | write hf' | read hf' | clear hf' => cases hf'.symm.trans hf
  | @decode size win hwin =>
    obtain ⟨result, length, type, info, hframe⟩ := validate_frame size win s
    rw [hframe]
    exact fatalKept_refl hf

/-- A pending transaction, legal or not, keeps the FATAL state. -/
theorem perform_fatalKept {port : Port} {q : Request} {s t : State} (hf : inFatal s = true)
    (h : perform port q s = .next t) : FatalKept s t := by
  cases hdec : decode port q with
  | ok i =>
    rw [perform_of_decode s hdec] at h
    obtain ⟨r, hanswer⟩ := exec_answer h
    exact hanswer.fatalKept hf
  | error e =>
    rw [perform_of_illegal s hdec] at h
    cases h
    exact fatalKept_raiseErr (s := { s with pend := s.pend.set port none }) hf .illegal port

/-- Settles O37: a step but a hard reset changes what is pending or still to come, which is no part of
`FatalKept`, or performs a pending transaction. -/
theorem onlyHardResetLeavesFatal : Obligations.OnlyHardResetLeavesFatal := by
  intro s t hf hreset h
  change FatalKept s t
  obtain ⟨rest, hin, -⟩ | ⟨port, q, rest, -, -, hstep⟩ | ⟨port, -, -, q, -, -, hstep⟩ |
    ⟨-, rest, -, -, hstep⟩ | ⟨port, rest, q, -, -, hstep⟩ | ⟨-, -, hstep⟩ |
    ⟨-, port, q, d, -, hstep⟩ := step_cases s
  · exact absurd (by rw [hin]; rfl) hreset
  all_goals rw [hstep] at h
  · cases h
    exact fatalKept_refl hf
  · exact perform_fatalKept hf h
  · cases h
    exact fatalKept_refl hf
  · exact perform_fatalKept (s := { s with inputs := rest }) hf h
  · cases h
    exact fatalKept_refl hf
  · exact perform_fatalKept (s := { s with draws := d }) hf h

/-! ### WRITE data of the wrong length -/

/-- Settles O18: the term is the ill-formed WRITE, which raises ILLEGAL. -/
theorem writeWithWrongLengthIsIllegal : Obligations.WriteWithWrongLengthIsIllegal := by
  intro s len skip data hlen
  rw [exec_write_of_wrong_length hlen, raiseErr_illegal_eq]

/-! ### The next state, and the end of a run -/

/-- Settles O47: every kind of step, whatever command it performs, has a next state from a legal one. -/
theorem legalStatesNeverStop : Obligations.LegalStatesNeverStop := fun _ hs => hs.exists_step

/-- Settles O10: with no input left, a step that is not this one would perform a pending port. -/
theorem finishedRunStays : Obligations.FinishedRunStays := by
  rintro s ⟨hin, hnone⟩
  obtain ⟨-, hstep⟩ | ⟨port, q, d, hp, -⟩ := step_of_inputs_nil hin
  · exact hstep
  · have hmem : port ∈ pendingPorts s := (mem_pendingPorts s port).mpr ⟨q, hp⟩
    rw [hnone] at hmem
    cases hmem

end Sys2Proof.Machine
